-- ==== Sys2Proof/Word.lean ====
section
/-! DEFINITION. The word types of the block (spec 00_scope.md R7, R9): every register and memory value is an
unsigned bit vector of the width the spec gives it. -/

namespace Sys2Proof

/-- A memory byte or an 8-bit register (R20, R50). -/
abbrev Byte := BitVec 8

/-- A 16-bit value: an instruction word, I, PC or a stack entry (R23, R25, R26, R70). -/
abbrev Word := BitVec 16

/-- One hexadecimal digit of an instruction word (R71). -/
abbrev Nibble := BitVec 4

/-- A 12-bit address field nnn (R73). -/
abbrev Addr12 := BitVec 12

/-- A framebuffer row read as one 64-bit value (R111). -/
abbrev RowBits := BitVec 64

/-- The name of a general register R0..R15 (R20): a name, not a number that is computed with. -/
abbrev Reg := Fin 16

/-- R15, the carry, borrow and collision flag register (R21). -/
abbrev flagReg : Reg := 15

end Sys2Proof
end

