-- ==== Sys2Proof/Machine/Flags.lean ====
section
/-! DEFINITION. The values R15 takes as carry, borrow, shifted-out bit and collision flag (spec 10_state.md R21,
43_alu.md R146..R152, 41_display.md R114). There is no other flag (R29). -/

namespace Sys2Proof.Machine

/-- A flag as the byte 0 or 1. -/
def flagByte (c : Bool) : Byte := if c then 1 else 0

/-- The 16-bit sum of two bytes, 0..510 (R146). -/
def wideSum (a b : Byte) : Word := a.setWidth 16 + b.setWidth 16

/-- The carry of `add-carry`: 1 iff the true sum exceeds 255 (R146, R152). -/
def carryFlag (a b : Byte) : Byte := flagByte (decide (255 < wideSum a b))

/-- The borrow flag: 1 iff the minuend is strictly greater than the subtrahend (R147, R149, R152). -/
def borrowFlag (minuend subtrahend : Byte) : Byte := flagByte (decide (subtrahend < minuend))

/-- The bit a right shift shifts out (R148). -/
def shiftRightFlag (v : Byte) : Byte := v &&& 1

/-- The bit a left shift shifts out, as 0 or 1 (R150). -/
def shiftLeftFlag (v : Byte) : Byte := flagByte (v &&& 0x80 != 0)

/-- A row collides when a lit pixel was turned off (R113, R114). -/
def rowCollides (old new : RowBits) : Bool := old &&& ~~~new != 0

end Sys2Proof.Machine
end

