-- ==== Sys2Proof/Syntax.lean ====
section
/-! DEFINITION. The 34 instructions of the block as one inductive (spec 30_encoding.md R71, R74), and the assembler
notation of R80 in parsed form. -/

namespace Sys2Proof

/-- One constructor per row of the opcode table. The fields are those of the row's pattern (R72), each of exactly
the width its bits have, so that every term is an instruction. The y field of the shifts is decoded but not used
(R79); it is kept so that the encoding of an instruction is the word it was decoded from. -/
inductive Instr where
  /-- 00E0 -/
  | clearScreen
  /-- 00EE -/
  | ret
  /-- 1nnn -/
  | jump (nnn : Addr12)
  /-- 2nnn -/
  | call (nnn : Addr12)
  /-- 3xkk -/
  | skipEqImm (x : Reg) (kk : Byte)
  /-- 4xkk -/
  | skipNeImm (x : Reg) (kk : Byte)
  /-- 5xy0 -/
  | skipEqReg (x y : Reg)
  /-- 6xkk -/
  | loadImm (x : Reg) (kk : Byte)
  /-- 7xkk -/
  | addImm (x : Reg) (kk : Byte)
  /-- 8xy0 -/
  | copy (x y : Reg)
  /-- 8xy1 -/
  | orReg (x y : Reg)
  /-- 8xy2 -/
  | andReg (x y : Reg)
  /-- 8xy3 -/
  | xorReg (x y : Reg)
  /-- 8xy4 -/
  | addCarry (x y : Reg)
  /-- 8xy5 -/
  | subBorrow (x y : Reg)
  /-- 8xy6 -/
  | shiftRight (x y : Reg)
  /-- 8xy7 -/
  | subBorrowRev (x y : Reg)
  /-- 8xyE -/
  | shiftLeft (x y : Reg)
  /-- 9xy0 -/
  | skipNeReg (x y : Reg)
  /-- Annn -/
  | loadIndex (nnn : Addr12)
  /-- Bnnn -/
  | jumpOffset (nnn : Addr12)
  /-- Cxkk -/
  | randAnd (x : Reg) (kk : Byte)
  /-- Dxyn -/
  | drawSprite (x y : Reg) (n : Nibble)
  /-- Ex9E -/
  | skipKeyDown (x : Reg)
  /-- ExA1 -/
  | skipKeyUp (x : Reg)
  /-- Fx07 -/
  | readDelay (x : Reg)
  /-- Fx0A -/
  | awaitKey (x : Reg)
  /-- Fx15 -/
  | writeDelay (x : Reg)
  /-- Fx18 -/
  | writeSound (x : Reg)
  /-- Fx1E -/
  | addIndex (x : Reg)
  /-- Fx29 -/
  | fontAddr (x : Reg)
  /-- Fx33 -/
  | bcd (x : Reg)
  /-- Fx55 -/
  | storeRegs (x : Reg)
  /-- Fx65 -/
  | loadRegs (x : Reg)
deriving DecidableEq, Repr

/-- The 34 mnemonics of R80. -/
inductive Mnemonic where
  | clearScreen | ret | jump | call | skipEqImm | skipNeImm | skipEqReg | loadImm | addImm | copy | orReg | andReg
  | xorReg | addCarry | subBorrow | shiftRight | subBorrowRev | shiftLeft | skipNeReg | loadIndex | jumpOffset
  | randAnd | drawSprite | skipKeyDown | skipKeyUp | readDelay | awaitKey | writeDelay | writeSound | addIndex
  | fontAddr | bcd | storeRegs | loadRegs
deriving DecidableEq, Repr

/-- How R80 spells each mnemonic. -/
def Mnemonic.spelling : Mnemonic → String
  | .clearScreen => "clear-screen" | .ret => "return" | .jump => "jump" | .call => "call"
  | .skipEqImm => "skip-eq-imm" | .skipNeImm => "skip-ne-imm" | .skipEqReg => "skip-eq-reg"
  | .loadImm => "load-imm" | .addImm => "add-imm" | .copy => "copy" | .orReg => "or" | .andReg => "and"
  | .xorReg => "xor" | .addCarry => "add-carry" | .subBorrow => "sub-borrow" | .shiftRight => "shift-right"
  | .subBorrowRev => "sub-borrow-rev" | .shiftLeft => "shift-left" | .skipNeReg => "skip-ne-reg"
  | .loadIndex => "load-index" | .jumpOffset => "jump-offset" | .randAnd => "rand-and"
  | .drawSprite => "draw-sprite" | .skipKeyDown => "skip-key-down" | .skipKeyUp => "skip-key-up"
  | .readDelay => "read-delay" | .awaitKey => "await-key" | .writeDelay => "write-delay"
  | .writeSound => "write-sound" | .addIndex => "add-index" | .fontAddr => "font-addr" | .bcd => "bcd"
  | .storeRegs => "store-regs" | .loadRegs => "load-regs"

/-- An operand as written: a register, a number in decimal or hexadecimal, or a label (R80). The numbers are not yet
checked; `AsmLine.wellFormed` checks them. -/
inductive AsmOperand where
  | reg (r : Nat)
  | num (v : Nat)
  | label (name : String)
deriving DecidableEq, Repr

/-- One line of assembly (R80): an instruction, a label that binds the address of the next instruction, or one of
the two directives. Comments are not part of the parsed form. -/
inductive AsmLine where
  | instr (m : Mnemonic) (operands : List AsmOperand)
  | label (name : String)
  /-- `.word 0xHHHH` -/
  | word (v : Nat)
  /-- `.byte 0xHH` -/
  | byte (v : Nat)
deriving DecidableEq, Repr

end Sys2Proof
end

