-- ==== Sys2Proof/Config.lean ====
section
/-! DEFINITION. The fixed parameters of the block (spec 00_scope.md R7), its open parameters (R8) and the one free
value of the model: the random byte of a tick for which the environment has supplied no input. -/

namespace Sys2Proof.Config

/-! ### Fixed values (R7). Each is `@[simp]`, so that lemmas are stated over numerals. -/

/-- Memory is 4096 bytes, addresses 0..4095 (R50). -/
@[simp] abbrev memSize : Nat := 4096
/-- The font occupies [0, 80) (R232). -/
@[simp] abbrev fontSize : Nat := 80
/-- First byte of the framebuffer (R51). -/
@[simp] abbrev fbBase : Nat := 80
/-- Size of the framebuffer in bytes (R51). -/
@[simp] abbrev fbSize : Nat := 256
/-- Display width in pixels (R110). -/
@[simp] abbrev displayW : Nat := 64
/-- Display height in pixels (R110). -/
@[simp] abbrev displayH : Nat := 32
/-- KEY[k] is the byte at 337 + k (R30). -/
@[simp] abbrev keyBase : Nat := 337
/-- The number of logical keys (R7). -/
@[simp] abbrev numKeys : Nat := 16
/-- WAIT_FLAG is the byte at 360 (R30). -/
@[simp] abbrev waitFlagAddr : Nat := 360
/-- WAIT_TARGET is the byte at 361 (R30). -/
@[simp] abbrev waitTargetAddr : Nat := 361
/-- The ROM load address and the reset PC (R54). -/
@[simp] abbrev progStart : Nat := 512
/-- The longest ROM, 4096 − 512 bytes (R231). -/
@[simp] abbrev maxRom : Nat := 3584
/-- The call stack has 16 entries; a call at SP = 15 overflows (R26, R123). -/
@[simp] abbrev maxSp : Nat := 15

/-- UNKNOWN_OPCODE_POLICY (R8, D2): what a word that matches no row of the decode table does. -/
inductive UnknownOpcodePolicy where
  /-- the word is a no-op that sets UNK (the reference value) -/
  | nop
  /-- the word raises UNKNOWN_OPCODE -/
  | fault
deriving DecidableEq, Repr

/-- The open parameters of construction (R8, R230): the spec constrains none of them. -/
structure Params where
  /-- UNKNOWN_OPCODE_POLICY (D2) -/
  policy : UnknownOpcodePolicy
  /-- FONT, the bytes of addresses 0..79 (D16) -/
  font : Vector Byte 80
  /-- INIT_R, the general registers at construction (D15) -/
  initR : Vector Byte 16
  /-- INIT_I, the index register at construction (D15) -/
  initI : Word
deriving DecidableEq, Repr

/-- The `k`-th random byte that no supplied input names (R97, D14: "a free draw"). A free value: it has no body, so
nothing can be proved of its value (DESIGN CHOICE, log entry 4). -/
opaque freeRnd : Nat → Byte

end Sys2Proof.Config
end

