-- ==== Sys2Proof/WellFormed.lean ====
section
/-! DEFINITION. Which terms are well formed. A term of `Instr` always is: each field has exactly the width of its
bits (spec 30_encoding.md R71, R73), so no check is left. What can be ill formed is what stands before encoding, a
line of assembly (R80), and a ROM image (70_reset_and_hazards.md R231). -/

namespace Sys2Proof

/-- What an operand position of R80 takes. -/
inductive OperandKind where
  | reg | addr12 | imm8 | imm4
deriving DecidableEq, Repr

/-- The operand lists that R80 allows a mnemonic; the shifts have a second form with the ignored y. -/
def Mnemonic.forms : Mnemonic → List (List OperandKind)
  | .clearScreen | .ret => [[]]
  | .jump | .call | .loadIndex | .jumpOffset => [[.addr12]]
  | .skipEqImm | .skipNeImm | .loadImm | .addImm | .randAnd => [[.reg, .imm8]]
  | .skipEqReg | .copy | .orReg | .andReg | .xorReg | .addCarry | .subBorrow | .subBorrowRev | .skipNeReg =>
    [[.reg, .reg]]
  | .shiftRight | .shiftLeft => [[.reg], [.reg, .reg]]
  | .drawSprite => [[.reg, .reg, .imm4]]
  | .skipKeyDown | .skipKeyUp | .readDelay | .awaitKey | .writeDelay | .writeSound | .addIndex | .fontAddr | .bcd
  | .storeRegs | .loadRegs => [[.reg]]

/-- An operand fits a position: registers are R0..R15, numbers fit their field, and a label stands only for an nnn
(R80). `labels` are the names the program binds; a name it does not bind fits nowhere (DESIGN CHOICE, log entry 16). -/
def AsmOperand.fits (labels : List String) : AsmOperand → OperandKind → Bool
  | .reg r, .reg => decide (r < 16)
  | .num v, .addr12 => decide (v < 4096)
  | .num v, .imm8 => decide (v < 256)
  | .num v, .imm4 => decide (v < 16)
  | .label l, .addr12 => labels.contains l
  | .reg _, .addr12 | .reg _, .imm8 | .reg _, .imm4 => false
  | .num _, .reg => false
  | .label _, .reg | .label _, .imm8 | .label _, .imm4 => false

/-- The operands fit one of the mnemonic's forms, position by position. -/
def operandsFit (labels : List String) : List AsmOperand → List OperandKind → Bool
  | [], [] => true
  | o :: os, k :: ks => o.fits labels k && operandsFit labels os ks
  | [], _ :: _ => false
  | _ :: _, [] => false

/-- A line is well formed: its operands fit a form of its mnemonic, a directive's number fits its width (R80). -/
def AsmLine.wellFormed (labels : List String) : AsmLine → Bool
  | .instr m os => m.forms.any (operandsFit labels os)
  | .label _ => true
  | .word v => decide (v < 65536)
  | .byte v => decide (v < 256)

/-- The labels a program binds. -/
def boundLabels (lines : List AsmLine) : List String :=
  lines.filterMap fun
    | .label l => some l
    | .instr _ _ => none
    | .word _ => none
    | .byte _ => none

/-- A program is well formed: every line is, and no label is bound twice. R80 is silent on a label that is bound twice in
one program, and on one that is used and bound nowhere: here either makes the program ill formed, so that `assemble`
gives none (DESIGN CHOICE, log entry 16). -/
def programWellFormed (lines : List AsmLine) : Bool :=
  lines.all (AsmLine.wellFormed (boundLabels lines)) && decide (boundLabels lines).Nodup

/-- A ROM image is well formed: it fits the program space (R231). A ROM has no header and no checksum, and length 0
is legal. -/
def romWellFormed (rom : List Byte) : Bool :=
  decide (rom.length ≤ Config.maxRom)

end Sys2Proof
end

