-- ==== Sys2Proof/Decode.lean ====
section
/-! DEFINITION. The decoder and the encoder (spec 30_encoding.md). The decoder is R74 as it is written: a table of
masks and patterns, the first matching row wins, and a word that matches no row is unknown. The encoder is written
from the formats of R71. The assembler of R80 stands last. -/

namespace Sys2Proof

/-! ### Fields (R72), for every word whatever its operation -/

/-- nnn = w[11:0] -/
def fieldNnn (w : Word) : Addr12 := w.extractLsb' 0 12
/-- n = w[3:0] -/
def fieldN (w : Word) : Nibble := w.extractLsb' 0 4
/-- kk = w[7:0] -/
def fieldKk (w : Word) : Byte := w.extractLsb' 0 8
/-- x = w[11:8] -/
def fieldX (w : Word) : Reg := (w.extractLsb' 8 4).toFin
/-- y = w[7:4] -/
def fieldY (w : Word) : Reg := (w.extractLsb' 4 4).toFin

/-! ### The decode table -/

/-- One row of R74: `w` selects the row when `w & mask = pattern`, and `build` takes the fields from `w`. -/
structure OpcodeRow where
  mask : Word
  pattern : Word
  build : Word → Instr

/-- The rows with an exact match, and the E and F rows, whose sub-opcode is a byte. -/
def rowsExactAndByte : List OpcodeRow :=
  [ ⟨0xFFFF, 0x00E0, fun _ => .clearScreen⟩,
    ⟨0xFFFF, 0x00EE, fun _ => .ret⟩,
    ⟨0xF0FF, 0xE09E, fun w => .skipKeyDown (fieldX w)⟩,
    ⟨0xF0FF, 0xE0A1, fun w => .skipKeyUp (fieldX w)⟩,
    ⟨0xF0FF, 0xF007, fun w => .readDelay (fieldX w)⟩,
    ⟨0xF0FF, 0xF00A, fun w => .awaitKey (fieldX w)⟩,
    ⟨0xF0FF, 0xF015, fun w => .writeDelay (fieldX w)⟩,
    ⟨0xF0FF, 0xF018, fun w => .writeSound (fieldX w)⟩,
    ⟨0xF0FF, 0xF01E, fun w => .addIndex (fieldX w)⟩,
    ⟨0xF0FF, 0xF029, fun w => .fontAddr (fieldX w)⟩,
    ⟨0xF0FF, 0xF033, fun w => .bcd (fieldX w)⟩,
    ⟨0xF0FF, 0xF055, fun w => .storeRegs (fieldX w)⟩,
    ⟨0xF0FF, 0xF065, fun w => .loadRegs (fieldX w)⟩ ]

/-- The register-register rows, whose sub-opcode is the last digit. -/
def rowsRegReg : List OpcodeRow :=
  [ ⟨0xF00F, 0x5000, fun w => .skipEqReg (fieldX w) (fieldY w)⟩,
    ⟨0xF00F, 0x8000, fun w => .copy (fieldX w) (fieldY w)⟩,
    ⟨0xF00F, 0x8001, fun w => .orReg (fieldX w) (fieldY w)⟩,
    ⟨0xF00F, 0x8002, fun w => .andReg (fieldX w) (fieldY w)⟩,
    ⟨0xF00F, 0x8003, fun w => .xorReg (fieldX w) (fieldY w)⟩,
    ⟨0xF00F, 0x8004, fun w => .addCarry (fieldX w) (fieldY w)⟩,
    ⟨0xF00F, 0x8005, fun w => .subBorrow (fieldX w) (fieldY w)⟩,
    ⟨0xF00F, 0x8006, fun w => .shiftRight (fieldX w) (fieldY w)⟩,
    ⟨0xF00F, 0x8007, fun w => .subBorrowRev (fieldX w) (fieldY w)⟩,
    ⟨0xF00F, 0x800E, fun w => .shiftLeft (fieldX w) (fieldY w)⟩,
    ⟨0xF00F, 0x9000, fun w => .skipNeReg (fieldX w) (fieldY w)⟩ ]

/-- The rows that only the top digit selects. -/
def rowsTopDigit : List OpcodeRow :=
  [ ⟨0xF000, 0x1000, fun w => .jump (fieldNnn w)⟩,
    ⟨0xF000, 0x2000, fun w => .call (fieldNnn w)⟩,
    ⟨0xF000, 0x3000, fun w => .skipEqImm (fieldX w) (fieldKk w)⟩,
    ⟨0xF000, 0x4000, fun w => .skipNeImm (fieldX w) (fieldKk w)⟩,
    ⟨0xF000, 0x6000, fun w => .loadImm (fieldX w) (fieldKk w)⟩,
    ⟨0xF000, 0x7000, fun w => .addImm (fieldX w) (fieldKk w)⟩,
    ⟨0xF000, 0xA000, fun w => .loadIndex (fieldNnn w)⟩,
    ⟨0xF000, 0xB000, fun w => .jumpOffset (fieldNnn w)⟩,
    ⟨0xF000, 0xC000, fun w => .randAnd (fieldX w) (fieldKk w)⟩,
    ⟨0xF000, 0xD000, fun w => .drawSprite (fieldX w) (fieldY w) (fieldN w)⟩ ]

/-- The 34 rows of R74, more specific masks before less specific ones. No two rows match the same word (R75), so the
order within the table changes no result. -/
def opcodeTable : List OpcodeRow :=
  rowsExactAndByte ++ rowsRegReg ++ rowsTopDigit

/-- `w` selects this row (R74). -/
def OpcodeRow.selects (r : OpcodeRow) (w : Word) : Bool :=
  w &&& r.mask == r.pattern

/-- The instruction of a word, or none for an unknown opcode (R74, R76). -/
def decodeWord (w : Word) : Option Instr :=
  (opcodeTable.find? (·.selects w)).map (·.build w)

/-- What the decoder answers on a list of bytes. -/
inductive Decoded where
  /-- an instruction, and the bytes after it -/
  | instr (i : Instr) (rest : List Byte)
  /-- the two bytes form a word that matches no row (R76) -/
  | unknownOpcode (w : Word)
  /-- fewer than two bytes are left -/
  | truncated
deriving DecidableEq, Repr

/-- Decoding of bytes in memory order: every instruction is one 16-bit word, high byte first (R56, R70). -/
def decode : List Byte → Decoded
  | hi :: lo :: rest =>
    match decodeWord (hi ++ lo) with
    | some i => .instr i rest
    | none => .unknownOpcode (hi ++ lo)
  | [_] => .truncated
  | [] => .truncated

/-- The decoder on a word whose bits are numbered as the opcode table numbers them. Every instruction is the one
16-bit word; the block stores its high byte first. -/
def decodeTableWord (nbits w : Nat) : Option Instr :=
  let word : Word := BitVec.ofNat 16 (w % 2 ^ nbits)
  match decode [word.extractLsb' 8 8, word.extractLsb' 0 8] with
  | .instr i _ => some i
  | .unknownOpcode _ => none
  | .truncated => none

/-! ### The encoder, from the formats of R71 -/

/-- A register's digit. -/
def regDigit (r : Reg) : Nibble := BitVec.ofFin r

/-- Format NNN: op, nnn. -/
def formatNnn (op : Nibble) (nnn : Addr12) : Word := op ++ nnn
/-- Format XKK: op, x, kk. -/
def formatXkk (op : Nibble) (x : Reg) (kk : Byte) : Word := op ++ (regDigit x ++ kk)
/-- Formats XYS and XYN: op, x, y and a last digit, the function digit or n. -/
def formatXyn (op : Nibble) (x y : Reg) (n : Nibble) : Word := op ++ (regDigit x ++ (regDigit y ++ n))
/-- Format XS8: op, x and an 8-bit sub-opcode, laid out as XKK. -/
def formatXs8 (op : Nibble) (x : Reg) (sub : Byte) : Word := formatXkk op x sub

/-- The word of an instruction. -/
def encode : Instr → Word
  | .clearScreen => 0x00E0
  | .ret => 0x00EE
  | .jump nnn => formatNnn 0x1 nnn
  | .call nnn => formatNnn 0x2 nnn
  | .skipEqImm x kk => formatXkk 0x3 x kk
  | .skipNeImm x kk => formatXkk 0x4 x kk
  | .skipEqReg x y => formatXyn 0x5 x y 0x0
  | .loadImm x kk => formatXkk 0x6 x kk
  | .addImm x kk => formatXkk 0x7 x kk
  | .copy x y => formatXyn 0x8 x y 0x0
  | .orReg x y => formatXyn 0x8 x y 0x1
  | .andReg x y => formatXyn 0x8 x y 0x2
  | .xorReg x y => formatXyn 0x8 x y 0x3
  | .addCarry x y => formatXyn 0x8 x y 0x4
  | .subBorrow x y => formatXyn 0x8 x y 0x5
  | .shiftRight x y => formatXyn 0x8 x y 0x6
  | .subBorrowRev x y => formatXyn 0x8 x y 0x7
  | .shiftLeft x y => formatXyn 0x8 x y 0xE
  | .skipNeReg x y => formatXyn 0x9 x y 0x0
  | .loadIndex nnn => formatNnn 0xA nnn
  | .jumpOffset nnn => formatNnn 0xB nnn
  | .randAnd x kk => formatXkk 0xC x kk
  | .drawSprite x y n => formatXyn 0xD x y n
  | .skipKeyDown x => formatXs8 0xE x 0x9E
  | .skipKeyUp x => formatXs8 0xE x 0xA1
  | .readDelay x => formatXs8 0xF x 0x07
  | .awaitKey x => formatXs8 0xF x 0x0A
  | .writeDelay x => formatXs8 0xF x 0x15
  | .writeSound x => formatXs8 0xF x 0x18
  | .addIndex x => formatXs8 0xF x 0x1E
  | .fontAddr x => formatXs8 0xF x 0x29
  | .bcd x => formatXs8 0xF x 0x33
  | .storeRegs x => formatXs8 0xF x 0x55
  | .loadRegs x => formatXs8 0xF x 0x65

/-- The two bytes of a word in memory order (R56). -/
def wordBytes (w : Word) : List Byte := [w.extractLsb' 8 8, w.extractLsb' 0 8]

/-! ### The assembler (R80, R81): each mnemonic assembles to exactly one word -/

/-- A register operand's number as a register. -/
def regOfNat (r : Nat) : Reg := Fin.ofNat 16 r

/-- The instruction of a mnemonic and its operands' values; none where the operands are not those of R80. A shift
written with one register has y = 0. -/
def Mnemonic.build (m : Mnemonic) (operands : List Nat) : Option Instr :=
  match m, operands with
  | .clearScreen, [] => some .clearScreen
  | .ret, [] => some .ret
  | .jump, [a] => some (.jump (.ofNat 12 a))
  | .call, [a] => some (.call (.ofNat 12 a))
  | .skipEqImm, [x, k] => some (.skipEqImm (regOfNat x) (.ofNat 8 k))
  | .skipNeImm, [x, k] => some (.skipNeImm (regOfNat x) (.ofNat 8 k))
  | .skipEqReg, [x, y] => some (.skipEqReg (regOfNat x) (regOfNat y))
  | .loadImm, [x, k] => some (.loadImm (regOfNat x) (.ofNat 8 k))
  | .addImm, [x, k] => some (.addImm (regOfNat x) (.ofNat 8 k))
  | .copy, [x, y] => some (.copy (regOfNat x) (regOfNat y))
  | .orReg, [x, y] => some (.orReg (regOfNat x) (regOfNat y))
  | .andReg, [x, y] => some (.andReg (regOfNat x) (regOfNat y))
  | .xorReg, [x, y] => some (.xorReg (regOfNat x) (regOfNat y))
  | .addCarry, [x, y] => some (.addCarry (regOfNat x) (regOfNat y))
  | .subBorrow, [x, y] => some (.subBorrow (regOfNat x) (regOfNat y))
  | .shiftRight, [x] => some (.shiftRight (regOfNat x) 0)
  | .shiftRight, [x, y] => some (.shiftRight (regOfNat x) (regOfNat y))
  | .subBorrowRev, [x, y] => some (.subBorrowRev (regOfNat x) (regOfNat y))
  | .shiftLeft, [x] => some (.shiftLeft (regOfNat x) 0)
  | .shiftLeft, [x, y] => some (.shiftLeft (regOfNat x) (regOfNat y))
  | .skipNeReg, [x, y] => some (.skipNeReg (regOfNat x) (regOfNat y))
  | .loadIndex, [a] => some (.loadIndex (.ofNat 12 a))
  | .jumpOffset, [a] => some (.jumpOffset (.ofNat 12 a))
  | .randAnd, [x, k] => some (.randAnd (regOfNat x) (.ofNat 8 k))
  | .drawSprite, [x, y, n] => some (.drawSprite (regOfNat x) (regOfNat y) (.ofNat 4 n))
  | .skipKeyDown, [x] => some (.skipKeyDown (regOfNat x))
  | .skipKeyUp, [x] => some (.skipKeyUp (regOfNat x))
  | .readDelay, [x] => some (.readDelay (regOfNat x))
  | .awaitKey, [x] => some (.awaitKey (regOfNat x))
  | .writeDelay, [x] => some (.writeDelay (regOfNat x))
  | .writeSound, [x] => some (.writeSound (regOfNat x))
  | .addIndex, [x] => some (.addIndex (regOfNat x))
  | .fontAddr, [x] => some (.fontAddr (regOfNat x))
  | .bcd, [x] => some (.bcd (regOfNat x))
  | .storeRegs, [x] => some (.storeRegs (regOfNat x))
  | .loadRegs, [x] => some (.loadRegs (regOfNat x))
  | _, _ => none

/-- How many bytes a line emits: an instruction and `.word` two, `.byte` one, a label none. -/
def AsmLine.size : AsmLine → Nat
  | .instr _ _ => 2
  | .word _ => 2
  | .byte _ => 1
  | .label _ => 0

/-- The address of every label, for a program whose first line stands at `at_`. R80 binds a label to the address of the
next instruction. What a label is bound to where a directive (`.word`, `.byte`) or nothing follows it, R80 leaves open:
here it is the address of the next line that emits bytes, a directive included, or the end of the program (DESIGN CHOICE,
log entry 16). -/
def labelTable (at_ : Nat) : List AsmLine → List (String × Nat)
  | [] => []
  | .label l :: rest => (l, at_) :: labelTable at_ rest
  | line :: rest => labelTable (at_ + line.size) rest

/-- The value an operand stands for. -/
def AsmOperand.value (labels : List (String × Nat)) : AsmOperand → Option Nat
  | .reg r => some r
  | .num v => some v
  | .label l => labels.lookup l

/-- The bytes of one line; a word is emitted high byte first, as it stands in memory (R56; log entry 16). -/
def AsmLine.emit (labels : List (String × Nat)) : AsmLine → Option (List Byte)
  | .instr m os => ((os.mapM (AsmOperand.value labels)).bind m.build).map fun i => wordBytes (encode i)
  | .label _ => some []
  | .word v => some (wordBytes (.ofNat 16 v))
  | .byte v => some [.ofNat 8 v]

/-- The ROM image of a program; none where the program is ill formed or a label lies past the last address an nnn can
name. R80 names no address for the first line: it is taken to be 512, where the ROM is loaded (R54). That, and that a
label past 4095 gives none, are the model's choice (DESIGN CHOICE, log entry 16). -/
def assemble (lines : List AsmLine) : Option (List Byte) :=
  let labels := labelTable Config.progStart lines
  if programWellFormed lines && labels.all (fun l => decide (l.2 < Config.memSize)) then
    (lines.mapM (AsmLine.emit labels)).map List.flatten
  else none

/-- The line of assembly that stands for an instruction. -/
def disassemble : Instr → AsmLine
  | .clearScreen => .instr .clearScreen []
  | .ret => .instr .ret []
  | .jump a => .instr .jump [.num a.toNat]
  | .call a => .instr .call [.num a.toNat]
  | .skipEqImm x k => .instr .skipEqImm [.reg x.val, .num k.toNat]
  | .skipNeImm x k => .instr .skipNeImm [.reg x.val, .num k.toNat]
  | .skipEqReg x y => .instr .skipEqReg [.reg x.val, .reg y.val]
  | .loadImm x k => .instr .loadImm [.reg x.val, .num k.toNat]
  | .addImm x k => .instr .addImm [.reg x.val, .num k.toNat]
  | .copy x y => .instr .copy [.reg x.val, .reg y.val]
  | .orReg x y => .instr .orReg [.reg x.val, .reg y.val]
  | .andReg x y => .instr .andReg [.reg x.val, .reg y.val]
  | .xorReg x y => .instr .xorReg [.reg x.val, .reg y.val]
  | .addCarry x y => .instr .addCarry [.reg x.val, .reg y.val]
  | .subBorrow x y => .instr .subBorrow [.reg x.val, .reg y.val]
  | .shiftRight x y => .instr .shiftRight [.reg x.val, .reg y.val]
  | .subBorrowRev x y => .instr .subBorrowRev [.reg x.val, .reg y.val]
  | .shiftLeft x y => .instr .shiftLeft [.reg x.val, .reg y.val]
  | .skipNeReg x y => .instr .skipNeReg [.reg x.val, .reg y.val]
  | .loadIndex a => .instr .loadIndex [.num a.toNat]
  | .jumpOffset a => .instr .jumpOffset [.num a.toNat]
  | .randAnd x k => .instr .randAnd [.reg x.val, .num k.toNat]
  | .drawSprite x y n => .instr .drawSprite [.reg x.val, .reg y.val, .num n.toNat]
  | .skipKeyDown x => .instr .skipKeyDown [.reg x.val]
  | .skipKeyUp x => .instr .skipKeyUp [.reg x.val]
  | .readDelay x => .instr .readDelay [.reg x.val]
  | .awaitKey x => .instr .awaitKey [.reg x.val]
  | .writeDelay x => .instr .writeDelay [.reg x.val]
  | .writeSound x => .instr .writeSound [.reg x.val]
  | .addIndex x => .instr .addIndex [.reg x.val]
  | .fontAddr x => .instr .fontAddr [.reg x.val]
  | .bcd x => .instr .bcd [.reg x.val]
  | .storeRegs x => .instr .storeRegs [.reg x.val]
  | .loadRegs x => .instr .loadRegs [.reg x.val]

end Sys2Proof
end

