-- ==== Sys2Proof/Machine/Font.lean ====
section
/-! DEFINITION. The reference value of the parameter FONT (spec 93_implementation_defined.md I1; log entry 3): glyph d
at 5·d, five rows a glyph. -/

namespace Sys2Proof.Machine

/-- Glyphs 0..3. -/
def font0 : List Byte :=
  [0xF0, 0x90, 0x90, 0x90, 0xF0, 0x20, 0x60, 0x20, 0x20, 0x70,
   0xF0, 0x10, 0xF0, 0x80, 0xF0, 0xF0, 0x10, 0xF0, 0x10, 0xF0]

/-- Glyphs 4..7. -/
def font4 : List Byte :=
  [0x90, 0x90, 0xF0, 0x10, 0x10, 0xF0, 0x80, 0xF0, 0x10, 0xF0,
   0xF0, 0x80, 0xF0, 0x90, 0xF0, 0xF0, 0x10, 0x20, 0x40, 0x40]

/-- Glyphs 8..B. -/
def font8 : List Byte :=
  [0xF0, 0x90, 0xF0, 0x90, 0xF0, 0xF0, 0x90, 0xF0, 0x10, 0xF0,
   0xF0, 0x90, 0xF0, 0x90, 0x90, 0xE0, 0x90, 0xE0, 0x90, 0xE0]

/-- Glyphs C..F. -/
def fontC : List Byte :=
  [0xF0, 0x80, 0x80, 0x80, 0xF0, 0xE0, 0x90, 0x90, 0x90, 0xE0,
   0xF0, 0x80, 0xF0, 0x80, 0xF0, 0xF0, 0x80, 0xF0, 0x80, 0x80]

/-- The 80 bytes of the reference font. -/
def referenceFont : List Byte :=
  font0 ++ font4 ++ font8 ++ fontC

end Sys2Proof.Machine
end

