-- ==== Sys2Proof/Machine/State.lean ====
section
/-! DEFINITION. The complete state of the block between ticks (spec 10_state.md R33) as plain data, the reasons a
step can stop, and the machine after reset (R34). -/

namespace Sys2Proof.Machine

/-- Memory as (address, byte) pairs in one canonical form (`Memory.wf`, Machine/Ops.lean); an address that is not
listed reads as its reset contents. -/
abbrev Memory := List Host.Cell

/-- The run-time fault causes of R200. -/
inductive FaultCause where
  | bounds | stackOverflow | stackUnderflow | keyIndex | waitTarget | unknownOpcode
deriving DecidableEq, Repr

/-- The fault record of R205; a field that a cause does not record is none. -/
structure FaultRecord where
  cause : FaultCause
  pc : Word
  word : Option Word
  addr : Option Nat
  value : Option Byte
deriving DecidableEq, Repr

/-- RUN (R30): Running, or Faulted with its record. A fault of the block is a STATE (R204, R205), not the end of the
model's run: raising one answers a next state with RUN = Faulted. -/
inductive RunState where
  | running
  | faulted (record : FaultRecord)
deriving DecidableEq, Repr

/-- The host's input of one tick (R90): the key snapshot, true = pressed, and the random byte. -/
structure TickInput where
  keys : Vector Bool 16
  rnd : Byte
deriving DecidableEq, Repr

/-- The state: the tuple of R33, then the model's own fields (the parameter UNKNOWN_OPCODE_POLICY, the inputs that
the host has still to supply, and the count of random bytes drawn from nowhere). -/
structure State where
  /-- memory, with the framebuffer, key cells and wait cells in it (R50, R51) -/
  mem : Memory
  /-- R0..R15 (R20) -/
  regs : Vector Byte 16
  /-- the index register I (R25) -/
  i : Word
  /-- the program counter (R23) -/
  pc : Word
  /-- the stack pointer, the number of occupied entries (R26) -/
  sp : Byte
  /-- the call stack (R26) -/
  stack : Vector Word 16
  /-- the delay timer (R28) -/
  dt : Byte
  /-- the sound timer (R28) -/
  st : Byte
  /-- RUN (R30) -/
  run : RunState
  /-- UNK, set by an unknown opcode under NOP, never cleared (R30) -/
  unk : Bool
  /-- UNKNOWN_OPCODE_POLICY (R8), a parameter no step changes: the model's own field (log entry 7) -/
  policy : Config.UnknownOpcodePolicy
  /-- the host inputs of the coming ticks, oldest first (R90, R106): the model's own field (log entry 8) -/
  inputs : List TickInput
  /-- how many ticks ran without a supplied input: the model's own field, the argument of `Config.freeRnd` (log
  entry 4) -/
  freeCount : Nat
deriving DecidableEq, Repr

/-- Why a step stops without a next state. The block's own faults are not here: they are states (`RunState`). -/
inductive Fault where
  /-- Raised by `return` with SP above 15, where the spec's stack has no entry to read (R26: the legal values of SP
  are 0..15). No state reached from construction has such an SP (R123). Safe: the model stops. -/
  | noStackEntry
deriving DecidableEq, Repr

/-- Why the model gives no step. -/
inductive Refusal where
  /-- An instruction without a meaning, by its mnemonic. No arm raises it. Safe: the model stops. -/
  | notModelled (mnemonic : String)
  /-- Raised by `construct` for a ROM image longer than 3584 bytes (R231, "construction produces no machine and no
  tick runs"); no step raises it. Safe: no machine. -/
  | loadError
deriving DecidableEq, Repr

/-- The machine right after construction (R34, R230) from the empty ROM, with the reference parameters. R0..R15, I
and the stack, whose values the spec leaves open, are zero (DESIGN CHOICE, log entries 1 and 2); no memory byte is
listed, so that [0, 80) reads as the reference font (PRESUMED, log entry 3) and every other byte as 0 (R34). -/
def State.reset : State where
  mem := []
  regs := Vector.replicate 16 0
  i := 0
  pc := 512
  sp := 0
  stack := Vector.replicate 16 0
  dt := 0
  st := 0
  run := .running
  unk := false
  policy := .nop
  inputs := []
  freeCount := 0

end Sys2Proof.Machine
end

