-- ==== Sys2Proof/Machine/Ops.lean ====
section
/-! DEFINITION. The named operations over memory, the registers, PC, the stack and the timers, and the one operation
by which a fault is raised. Every meaning is written over these. -/

namespace Sys2Proof.Machine

/-- What a step answers. -/
abbrev Result := Host.Outcome State Fault Refusal

/-! ### Memory (20_memory.md) -/

/-- What an address reads as while it is not listed: its contents after construction from the empty ROM with the
reference font (R34, log entry 3). -/
def Memory.unlisted (a : Nat) : Byte := referenceFont.getD a 0

/-- The byte at `a`. Memory has addresses 0..4095 (R50); a use at an address past them raises BOUNDS before it reads
(`firstOutOfRange`). -/
def Memory.read : Memory → Nat → Byte
  | [], a => unlisted a
  | (b, v) :: m, a => if a = b then v else Memory.read m a

/-- List `v` at `a`, keeping the addresses rising. -/
def Memory.list (a : Nat) (v : Byte) : Memory → Memory
  | [] => [(a, v)]
  | (b, u) :: m => if a < b then (a, v) :: (b, u) :: m else if a = b then (a, v) :: m else (b, u) :: Memory.list a v m

/-- Take `a` off the list. -/
def Memory.unlist (a : Nat) (m : Memory) : Memory :=
  m.filter fun c => c.1 != a

/-- Store a byte. A value the address reads as when it is not listed is not listed, so that equal memories are equal
data. A store past the last address does not access memory (R53); its user raises BOUNDS first. -/
def Memory.write (m : Memory) (a : Nat) (v : Byte) : Memory :=
  if Config.memSize ≤ a then m
  else if v = unlisted a then m.unlist a
  else m.list a v

/-- The canonical form: rising addresses, each within memory, none listed with what it reads as unlisted. -/
abbrev Memory.wf (m : Memory) : Prop :=
  m.Pairwise (fun p q => p.1 < q.1) ∧ ∀ c ∈ m, c.1 < Config.memSize ∧ c.2 ≠ Memory.unlisted c.1

/-- Store bytes at rising addresses from `a`, the first at `a`, in that order (R11). -/
def Memory.writeBytes (m : Memory) (a : Nat) : List Byte → Memory
  | [] => m
  | v :: vs => (m.write a v).writeBytes (a + 1) vs

/-- The `n` bytes from `a`. -/
def Memory.readBytes (m : Memory) (a n : Nat) : List Byte :=
  (List.range n).map fun k => m.read (a + k)

/-- The lowest address ≥ 4096 among `base, …, base + n − 1`, computed on unbounded naturals (R9, R53): none when
every access is within memory, or when there is no access. -/
def firstOutOfRange (base n : Nat) : Option Nat :=
  if n = 0 ∨ base + n ≤ Config.memSize then none else some (max base Config.memSize)

/-! ### Registers (10_state.md R20..R28) -/

/-- R[r]. -/
def State.reg (s : State) (r : Reg) : Byte := s.regs[r]
/-- R[r] <- v. -/
def State.setReg (s : State) (r : Reg) (v : Byte) : State := { s with regs := s.regs.set r v }
/-- R15 <- v (R21). -/
def State.setFlag (s : State) (v : Byte) : State := s.setReg flagReg v
/-- I <- v; all 16 bits are kept (R25). -/
def State.setI (s : State) (v : Word) : State := { s with i := v }
/-- PC <- v. -/
def State.setPc (s : State) (v : Word) : State := { s with pc := v }
/-- DT <- v. -/
def State.setDt (s : State) (v : Byte) : State := { s with dt := v }
/-- ST <- v. -/
def State.setSt (s : State) (v : Byte) : State := { s with st := v }
/-- UNK <- 1 (R96). -/
def State.setUnk (s : State) : State := { s with unk := true }
/-- memory <- m. -/
def State.setMem (s : State) (m : Memory) : State := { s with mem := m }

/-- PC <- (PC + 2) mod 2^16: the advance of the CPU step (R93) and the skip (R124). -/
def State.advancePc (s : State) : State := s.setPc (s.pc + 2)

/-- The skip of R124..R127, R180, R181: pass exactly two bytes when `c` holds. -/
def State.skipIf (s : State) (c : Bool) : State := if c then s.advancePc else s

/-- SP <- SP + 1; stack[SP] <- v. Used below SP = 15 only (R122). -/
def State.push (s : State) (v : Word) : State :=
  { s with sp := s.sp + 1, stack := s.stack.setIfInBounds (s.sp.toNat + 1) v }

/-- PC <- stack[SP]; SP <- SP − 1, and none where the stack has no entry SP (R121, R26). -/
def State.pop (s : State) : Option State :=
  (s.stack[s.sp.toNat]?).map fun v => { s with pc := v, sp := s.sp - 1 }

/-- Store bytes from address `a`. -/
def State.storeBytes (s : State) (a : Nat) (vs : List Byte) : State := s.setMem (s.mem.writeBytes a vs)

/-- R0..Rx as bytes, R0 first (R164). -/
def State.regsUpTo (s : State) (x : Reg) : List Byte := s.regs.toList.take (x.val + 1)

/-- R[j] <- mem[base + j] for j = 0..x (R165). -/
def State.loadRegsFrom (s : State) (base : Nat) (x : Reg) : State :=
  { s with regs := Vector.ofFn fun j : Fin 16 => if j ≤ x then s.mem.read (base + j.val) else s.regs[j] }

/-- One timer's decrement, saturating at 0 (R28). -/
def countDown (t : Byte) : Byte := if 0 < t then t - 1 else t

/-- The timer step (R98). -/
def State.timerStep (s : State) : State := { s with dt := countDown s.dt, st := countDown s.st }

/-! ### The host inputs (R90, R97) -/

/-- The input of the coming tick: the next one the host supplies, or, when it supplies none, no key pressed and a
free random byte (DESIGN CHOICE, log entries 4 and 5). -/
def State.input (s : State) : TickInput :=
  match s.inputs with
  | i :: _ => i
  | [] => { keys := Vector.replicate 16 false, rnd := Config.freeRnd s.freeCount }

/-- The tick has used its input. -/
def State.consumeInput (s : State) : State :=
  match s.inputs with
  | _ :: is => { s with inputs := is }
  | [] => { s with freeCount := s.freeCount + 1 }

/-! ### Raising a fault (60_exceptions.md) -/

/-- The codes of R200. -/
def FaultCause.code : FaultCause → Nat
  | .bounds => 1
  | .stackOverflow => 2
  | .stackUnderflow => 3
  | .keyIndex => 4
  | .waitTarget => 5
  | .unknownOpcode => 6

/-- `raise C(info)` (R204, R205): RUN becomes Faulted with the record, and PC is the record's pc, the address of the
faulting instruction. Every rule checks before its first write, so that PC is all there is to restore. There is no
handler, no vector and no return from a fault (R210, R211): the only return is the subroutine return. -/
def State.raise (s : State) (r : FaultRecord) : State := { s with pc := r.pc, run := .faulted r }

/-- The fault of an executing instruction with word `w`: PC already holds pc0 + 2 (R93), so pc0 is PC − 2. -/
def State.raiseExec (s : State) (w : Word) (cause : FaultCause) (addr : Option Nat) (value : Option Byte) : State :=
  s.raise { cause := cause, pc := s.pc - 2, word := some w, addr := addr, value := value }

/-- An unknown opcode (R96), after the PC advance, under either policy. -/
def State.unknownOpcode (s : State) (w : Word) : State :=
  match s.policy with
  | .nop => s.setUnk
  | .fault => s.raiseExec w .unknownOpcode none none

/-- Continue after a next state; a fault or a refusal stays. -/
def Result.andThen (r : Result) (f : State → State) : Result :=
  match r with
  | .next s => .next (f s)
  | .fault e => .fault e
  | .refused e => .refused e

end Sys2Proof.Machine
end

