-- ==== Sys2Proof/Machine/Operands.lean ====
section
/-! DEFINITION. Operand forms (spec 30_encoding.md R73, 44_index_memory.md, 45_keys_timers.md): how immediates are
extended, which addresses an instruction forms, and the checks it makes on them. -/

namespace Sys2Proof.Machine

/-- An nnn as a 16-bit value, zero-extended (R73). -/
def extendAddr (nnn : Addr12) : Word := nnn.setWidth 16

/-- A byte as a 16-bit value, zero-extended (R9). -/
def extendByte (v : Byte) : Word := v.setWidth 16

/-- A register's index as a byte, as `await-key` stores it (R73, R183). -/
def regIndexByte (r : Reg) : Byte := BitVec.ofNat 8 r.val

/-- The target of `jump-offset`: R0 + nnn, at most 4350, not reduced modulo 4096 (R128). -/
def offsetTarget (r0 : Byte) (nnn : Addr12) : Word := extendByte r0 + extendAddr nnn

/-- The address of hex digit v's glyph: 5 · v, the value not reduced to its low nibble (R162). -/
def glyphAddr (v : Byte) : Word := 5 * extendByte v

/-- The three decimal digits of a byte, hundreds first (R163). -/
def bcdDigits (v : Byte) : List Byte := [v / 100, v / 10 % 10, v % 10]

/-- The cell of key k, KEY[k] (R30). -/
def keyAddr (k : Nat) : Nat := Config.keyBase + k

/-- Key k is pressed iff its cell is not 0 (R30). -/
def Memory.keyPressed (m : Memory) (k : Nat) : Bool := m.read (keyAddr k) != 0

/-- The effect `f` of an instruction with word `w` that accesses the `n` bytes from I, or BOUNDS with the lowest
out-of-range address and no other effect (R201, R204). -/
def State.withIndexSpan (s : State) (w : Word) (n : Nat) (f : Nat → State) : State :=
  match firstOutOfRange s.i.toNat n with
  | some a => s.raiseExec w .bounds (some a) none
  | none => f s.i.toNat

/-- The effect `f` of an instruction with word `w` that tests the key a register names, or KEY_INDEX where the
register names none (R206). -/
def State.withKey (s : State) (w : Word) (v : Byte) (f : Nat → State) : State :=
  if v.toNat < Config.numKeys then f v.toNat else s.raiseExec w .keyIndex none (some v)

end Sys2Proof.Machine
end

