-- ==== Sys2Proof/Machine/Alu.lean ====
section
/-! DEFINITION. The register and arithmetic family (spec 43_alu.md). Every statement of a rule reads the registers as
the statements before it left them (R11), which matters where x or y is 15. -/

namespace Sys2Proof.Machine

/-- `load-imm Rx, kk` (R140). -/
def execLoadImm (x : Reg) (kk : Byte) (s : State) : Result :=
  .next (s.setReg x kk)

/-- `add-imm Rx, kk` (R141): no flag. -/
def execAddImm (x : Reg) (kk : Byte) (s : State) : Result :=
  .next (s.setReg x (s.reg x + kk))

/-- `copy Rx, Ry` (R142). -/
def execCopy (x y : Reg) (s : State) : Result :=
  .next (s.setReg x (s.reg y))

/-- `or Rx, Ry` (R143). -/
def execOr (x y : Reg) (s : State) : Result :=
  .next (s.setReg x (s.reg x ||| s.reg y))

/-- `and Rx, Ry` (R144). -/
def execAnd (x y : Reg) (s : State) : Result :=
  .next (s.setReg x (s.reg x &&& s.reg y))

/-- `xor Rx, Ry` (R145). -/
def execXor (x y : Reg) (s : State) : Result :=
  .next (s.setReg x (s.reg x ^^^ s.reg y))

/-- `add-carry Rx, Ry` (R146): the sum and carry of the operands before any write; R15 is written last. -/
def execAddCarry (x y : Reg) (s : State) : Result :=
  let sum := wideSum (s.reg x) (s.reg y)
  .next ((s.setReg x (sum.setWidth 8)).setFlag (carryFlag (s.reg x) (s.reg y)))

/-- `sub-borrow Rx, Ry` (R147): R15 first; the subtraction reads the registers after it. -/
def execSubBorrow (x y : Reg) (s : State) : Result :=
  let s1 := s.setFlag (borrowFlag (s.reg x) (s.reg y))
  .next (s1.setReg x (s1.reg x - s1.reg y))

/-- `shift-right Rx` (R148): R15 first; y is ignored (R79). -/
def execShiftRight (x _y : Reg) (s : State) : Result :=
  let s1 := s.setFlag (shiftRightFlag (s.reg x))
  .next (s1.setReg x (s1.reg x >>> 1))

/-- `sub-borrow-rev Rx, Ry` (R149): R15 first; the result is written to Ry. -/
def execSubBorrowRev (x y : Reg) (s : State) : Result :=
  let s1 := s.setFlag (borrowFlag (s.reg y) (s.reg x))
  .next (s1.setReg y (s1.reg y - s1.reg x))

/-- `shift-left Rx` (R150): R15 first; y is ignored (R79). -/
def execShiftLeft (x _y : Reg) (s : State) : Result :=
  let s1 := s.setFlag (shiftLeftFlag (s.reg x))
  .next (s1.setReg x (s1.reg x <<< 1))

/-- `rand-and Rx, kk` (R151): the random byte of this tick's input. -/
def execRandAnd (x : Reg) (kk : Byte) (s : State) : Result :=
  .next (s.setReg x (s.input.rnd &&& kk))

end Sys2Proof.Machine
end

