-- ==== Sys2Proof/Machine/Control.lean ====
section
/-! DEFINITION. The control-transfer family (spec 42_control.md). PC already holds pc0 + 2. -/

namespace Sys2Proof.Machine

/-- `jump nnn` (R120). -/
def execJump (nnn : Addr12) (s : State) : Result :=
  .next (s.setPc (extendAddr nnn))

/-- `return` (R121): STACK_UNDERFLOW at SP = 0. The spec's stack ends at entry 15 (R26): above it nothing is
there to read, and the model stops by name (DESIGN CHOICE, log entry 6). -/
def execRet (s : State) : Result :=
  if s.sp = 0 then .next (s.raiseExec (encode .ret) .stackUnderflow none none)
  else match s.pop with
    | some t => .next t
    | none => .fault .noStackEntry

/-- `call nnn` (R122): STACK_OVERFLOW at SP = 15 or above; else the advanced PC is pushed. -/
def execCall (nnn : Addr12) (s : State) : Result :=
  if Config.maxSp ≤ s.sp.toNat then .next (s.raiseExec (encode (.call nnn)) .stackOverflow none none)
  else .next ((s.push s.pc).setPc (extendAddr nnn))

/-- `skip-eq-imm Rx, kk` (R124). -/
def execSkipEqImm (x : Reg) (kk : Byte) (s : State) : Result :=
  .next (s.skipIf (s.reg x == kk))

/-- `skip-ne-imm Rx, kk` (R125). -/
def execSkipNeImm (x : Reg) (kk : Byte) (s : State) : Result :=
  .next (s.skipIf (s.reg x != kk))

/-- `skip-eq-reg Rx, Ry` (R126). -/
def execSkipEqReg (x y : Reg) (s : State) : Result :=
  .next (s.skipIf (s.reg x == s.reg y))

/-- `skip-ne-reg Rx, Ry` (R127). -/
def execSkipNeReg (x y : Reg) (s : State) : Result :=
  .next (s.skipIf (s.reg x != s.reg y))

/-- `jump-offset nnn` (R128): the offset register is always R0. -/
def execJumpOffset (nnn : Addr12) (s : State) : Result :=
  .next (s.setPc (offsetTarget (s.reg 0) nnn))

end Sys2Proof.Machine
end

