-- ==== Sys2Proof/Machine/Display.lean ====
section
/-! DEFINITION. The display family (spec 41_display.md): the framebuffer's layout, `clear-screen` and
`draw-sprite`. -/

namespace Sys2Proof.Machine

/-- The first byte of row r (R110). -/
def rowAddr (r : Nat) : Nat := Config.fbBase + 8 * r

/-- Row(r): the 64-bit value of a row, its lowest address in bits 63..56 (R111). -/
def Memory.readRow (m : Memory) (r : Nat) : RowBits :=
  let a := rowAddr r
  m.read a ++ (m.read (a + 1) ++ (m.read (a + 2) ++ (m.read (a + 3) ++
    (m.read (a + 4) ++ (m.read (a + 5) ++ (m.read (a + 6) ++ m.read (a + 7)))))))

/-- The k-th byte of a row value: v[63 − 8k : 56 − 8k] (R111). -/
def rowByte (v : RowBits) (k : Nat) : Byte := v.extractLsb' (56 - 8 * k) 8

/-- Write a row value back (R111). -/
def Memory.writeRow (m : Memory) (r : Nat) (v : RowBits) : Memory :=
  m.writeBytes (rowAddr r) ((List.range 8).map (rowByte v))

/-- The sprite byte's lane: its most significant bit at column xo, bits past bit 0 lost (R113). -/
def spriteLane (sprite : Byte) (xo : Nat) : RowBits := (sprite.setWidth 64 <<< 56) >>> xo

/-- One row of a draw (R113): the memory after it, and whether it collided. -/
def drawRow (m : Memory) (row xo : Nat) (sprite : Byte) : Memory × Bool :=
  let old := m.readRow row
  let new := old ^^^ spriteLane sprite xo
  (m.writeRow row new, rowCollides old new)

/-- The row that the i-th sprite byte is drawn on (R113, R115). -/
def spriteRow (y : Byte) (i : Nat) : Nat := (y.toNat + i) % Config.displayH

/-- The start column of a draw (R113, R115). -/
def spriteColumn (x : Byte) : Nat := x.toNat % Config.displayW

/-- The first `n` rows of a draw: sprite byte i is read from `base + i` after rows 0..i−1 are written (R113, R116). -/
def drawRows (base : Nat) (x y : Byte) : Nat → Memory → Memory × Bool
  | 0, m => (m, false)
  | n + 1, m =>
    let before := drawRows base x y n m
    let drawn := drawRow before.1 (spriteRow y n) (spriteColumn x) (before.1.read (base + n))
    (drawn.1, before.2 || drawn.2)

/-- The framebuffer's bytes when no pixel is lit (R112). -/
def blankFramebuffer : List Byte := List.replicate Config.fbSize 0

/-- `clear-screen` (R112). -/
def execClearScreen (s : State) : Result :=
  .next (s.storeBytes Config.fbBase blankFramebuffer)

/-- `draw-sprite Rx, Ry, n` (R113): the bounds check first, the rows, then R15. -/
def execDrawSprite (x y : Reg) (n : Nibble) (s : State) : Result :=
  .next <| s.withIndexSpan (encode (.drawSprite x y n)) n.toNat fun base =>
    let drawn := drawRows base (s.reg x) (s.reg y) n.toNat s.mem
    (s.setMem drawn.1).setFlag (flagByte drawn.2)

end Sys2Proof.Machine
end

