-- ==== Sys2Proof/Machine/IndexMemory.lean ====
section
/-! DEFINITION. The index register and memory family (spec 44_index_memory.md). Every access is at I + k on unbounded
naturals; an instruction checks all its addresses before its first write; I is never modified by an access. -/

namespace Sys2Proof.Machine

/-- `load-index nnn` (R160). -/
def execLoadIndex (nnn : Addr12) (s : State) : Result :=
  .next (s.setI (extendAddr nnn))

/-- `add-index Rx` (R161): modulo 2^16, no flag. -/
def execAddIndex (x : Reg) (s : State) : Result :=
  .next (s.setI (s.i + extendByte (s.reg x)))

/-- `font-addr Rx` (R162). -/
def execFontAddr (x : Reg) (s : State) : Result :=
  .next (s.setI (glyphAddr (s.reg x)))

/-- `bcd Rx` (R163). -/
def execBcd (x : Reg) (s : State) : Result :=
  .next <| s.withIndexSpan (encode (.bcd x)) 3 fun base => s.storeBytes base (bcdDigits (s.reg x))

/-- `store-regs Rx` (R164). -/
def execStoreRegs (x : Reg) (s : State) : Result :=
  .next <| s.withIndexSpan (encode (.storeRegs x)) (x.val + 1) fun base => s.storeBytes base (s.regsUpTo x)

/-- `load-regs Rx` (R165). -/
def execLoadRegs (x : Reg) (s : State) : Result :=
  .next <| s.withIndexSpan (encode (.loadRegs x)) (x.val + 1) fun base => s.loadRegsFrom base x

end Sys2Proof.Machine
end

