-- ==== Sys2Proof/Machine/KeysTimers.lean ====
section
/-! DEFINITION. The key and timer family (spec 45_keys_timers.md). -/

namespace Sys2Proof.Machine

/-- `skip-key-down Rx` (R180). -/
def execSkipKeyDown (x : Reg) (s : State) : Result :=
  .next <| s.withKey (encode (.skipKeyDown x)) (s.reg x) fun k => s.skipIf (s.mem.keyPressed k)

/-- `skip-key-up Rx` (R181). -/
def execSkipKeyUp (x : Reg) (s : State) : Result :=
  .next <| s.withKey (encode (.skipKeyUp x)) (s.reg x) fun k => s.skipIf (!s.mem.keyPressed k)

/-- `read-delay Rx` (R182): DT before this tick's timer step. -/
def execReadDelay (x : Reg) (s : State) : Result :=
  .next (s.setReg x s.dt)

/-- `await-key Rx` (R183): WAIT_TARGET <- x, then WAIT_FLAG <- 1. Rx is written by the wait-FSM step. -/
def execAwaitKey (x : Reg) (s : State) : Result :=
  .next (s.setMem ((s.mem.write Config.waitTargetAddr (regIndexByte x)).write Config.waitFlagAddr 1))

/-- `write-delay Rx` (R184). -/
def execWriteDelay (x : Reg) (s : State) : Result :=
  .next (s.setDt (s.reg x))

/-- `write-sound Rx` (R185). -/
def execWriteSound (x : Reg) (s : State) : Result :=
  .next (s.setSt (s.reg x))

end Sys2Proof.Machine
end

