-- ==== Sys2Proof/Machine/Tick.lean ====
section
/-! DEFINITION. The tick and its parts other than the meaning of an instruction (spec 40_cycle.md): input refresh,
the choice between the wait-FSM step and the CPU step, fetch, decode, the timer step and the wait-FSM step. -/

namespace Sys2Proof.Machine

/-- The byte a key cell holds: 1 pressed, 0 released (R92). -/
def keyByte (pressed : Bool) : Byte := if pressed then 1 else 0

/-- Input refresh (R92): KEY[k] <- the snapshot's key k, for k = 0..15. -/
def State.inputRefresh (s : State) : State :=
  s.storeBytes Config.keyBase (s.input.keys.toList.map keyByte)

/-- The keyboard-wait FSM of R31, a function of memory. -/
inductive WaitFsm where
  | running
  | waitingForKey (target : Byte)
deriving DecidableEq, Repr

/-- WaitingForKey(mem[361]) iff mem[360] ≠ 0 (R31). -/
def State.waitFsm (s : State) : WaitFsm :=
  if s.mem.read Config.waitFlagAddr = 0 then .running
  else .waitingForKey (s.mem.read Config.waitTargetAddr)

/-- The first pressed key in the scan order 0 → F (R100). -/
def Memory.firstPressed (m : Memory) : Option (Fin 16) :=
  (List.finRange 16).find? fun k => m.keyPressed k.val

/-- The wait-FSM step for WAIT_TARGET = `target` (R100). -/
def State.waitStep (s : State) (target : Byte) : State :=
  match s.mem.firstPressed with
  | none => s
  | some k =>
    if h : target.toNat < 16 then
      (s.setReg ⟨target.toNat, h⟩ (regIndexByte k)).setMem (s.mem.write Config.waitFlagAddr 0)
    else s.raise { cause := .waitTarget, pc := s.pc, word := none, addr := none, value := some target }

/-- The word at PC, big-endian (R56, R93). -/
def State.fetchWord (s : State) : Word :=
  s.mem.read s.pc.toNat ++ s.mem.read (s.pc.toNat + 1)

/-- One CPU step (R93): fetch with its bounds check (R94), PC advance, decode, execute; an unknown word per the
policy (R96). -/
def State.cpuStep (s : State) : Result :=
  match firstOutOfRange s.pc.toNat 2 with
  | some a => .next (s.raise { cause := .bounds, pc := s.pc, word := none, addr := some a, value := none })
  | none =>
    match decodeWord s.fetchWord with
    | some i => exec i s.advancePc
    | none => .next (s.advancePc.unknownOpcode s.fetchWord)

/-- The timer step of a tick whose CPU step completed (R98); none where it faulted (R99). -/
def State.timerStepIfRunning (s : State) : State :=
  match s.run with
  | .running => s.timerStep
  | .faulted _ => s

/-- Phase 2 of a tick (R91), after the input refresh. -/
def State.phase2 (s : State) : Result :=
  match s.waitFsm with
  | .waitingForKey target => .next (s.waitStep target)
  | .running => s.cpuStep.andThen State.timerStepIfRunning

/-- The tick (R90), with the next host input. A tick of a Faulted machine changes no state (R103). -/
def tick (s : State) : Result :=
  match s.run with
  | .faulted _ => .next s
  | .running => s.inputRefresh.phase2.andThen State.consumeInput

/-- `Tick(keys, rnd)` of R90: the tick whose host input is given. -/
def tickWith (input : TickInput) (s : State) : Result :=
  match s.run with
  | .faulted _ => .next s
  | .running => tick { s with inputs := input :: s.inputs }

end Sys2Proof.Machine
end

