-- ==== Sys2Proof/Machine/Step.lean ====
section
/-! DEFINITION. The step of the machine is the tick (spec 40_cycle.md R90, D1), and how a word is placed where the
next step fetches it. -/

namespace Sys2Proof.Machine

/-- One step = one tick. -/
def step (s : State) : Host.Outcome State Fault Refusal := tick s

/-- PC is an address a word can be placed at so that the next tick fetches it unchanged: both bytes are in memory,
the input refresh of the tick writes neither (337..352), and neither is WAIT_FLAG (360). -/
def canHoldNextWord (pc : Nat) : Bool :=
  decide (pc + 2 ≤ Config.memSize) && !decide (336 ≤ pc ∧ pc ≤ 352) && !decide (359 ≤ pc ∧ pc ≤ 360)

/-- `s` with the word `w` stored where the next tick fetches. The tick must run a CPU step: RUN is Running and
WAIT_FLAG is 0. PC stays where it is unless no word can be placed there; then it is 512. -/
def State.withFetchWord (s : State) (nbits w : Nat) : State :=
  let pc : Word := if canHoldNextWord s.pc.toNat then s.pc else 512
  let word : Word := BitVec.ofNat 16 (w % 2 ^ nbits)
  { s with
    pc := pc
    run := .running
    mem := (s.mem.write Config.waitFlagAddr 0).writeBytes pc.toNat (wordBytes word) }

end Sys2Proof.Machine
end

