-- ==== Sys2Proof/Machine/Construct.lean ====
section
/-! DEFINITION. Construction, the block's only reset (spec 70_reset_and_hazards.md R230..R232), for every ROM image
and every value of the open parameters (00_scope.md R8). -/

namespace Sys2Proof.Machine

/-- Memory after construction: 0, then FONT at 0, then the ROM at 512 (R230). Written over the model's unlisted
contents, which are already 0 outside [0, 80). -/
def constructMemory (font : Vector Byte 80) (rom : List Byte) : Memory :=
  (Memory.writeBytes [] 0 font.toList).writeBytes Config.progStart rom

/-- `Construct(rom)` (R230), with the host inputs that are to follow; a ROM longer than 3584 bytes gives no machine
(R231). The stack entries, which the spec leaves unspecified and unobservable (R27), are zero (log entry 2). -/
def construct (p : Config.Params) (rom : List Byte) (inputs : List TickInput) : Result :=
  if romWellFormed rom then
    .next
      { mem := constructMemory p.font rom
        regs := p.initR
        i := p.initI
        pc := 512
        sp := 0
        stack := Vector.replicate 16 0
        dt := 0
        st := 0
        run := .running
        unk := false
        policy := p.policy
        inputs := inputs
        freeCount := 0 }
  else .refused .loadError

/-- The parameters `State.reset` is constructed with: the reference values of R8, and zero where the spec gives none
(log entries 1 and 3). -/
def referenceParams : Config.Params where
  policy := .nop
  font := Vector.ofFn fun k => referenceFont.getD k.val 0
  initR := Vector.replicate 16 0
  initI := 0

end Sys2Proof.Machine
end

