-- ==== Sys2Proof/Machine/Outputs.lean ====
section
/-! DEFINITION. What the block exposes to the host at the end of every tick (spec 40_cycle.md R102, 60_exceptions.md
R216), and the framebuffer read as pixels (41_display.md R110). -/

namespace Sys2Proof.Machine

/-- Pixel (px, py): bit 7 − (px mod 8) of byte 80 + 8·py + (px div 8); true = lit, foreground (R110). -/
def State.pixel (s : State) (px py : Nat) : Bool :=
  (s.mem.read (rowAddr py + px / 8)).getLsbD (7 - px % 8)

/-- The 256 framebuffer bytes that the render collaborator reads (R65, R102). -/
def State.framebuffer (s : State) : List Byte := s.mem.readBytes Config.fbBase Config.fbSize

/-- The sound output (R28, R102). -/
def State.soundOn (s : State) : Bool := s.st != 0

/-- The outputs of a tick. -/
structure Exposure where
  framebuffer : List Byte
  soundOn : Bool
  run : RunState
  unk : Bool
deriving DecidableEq, Repr

/-- Exposure (R102), also when RUN is Faulted. -/
def State.expose (s : State) : Exposure where
  framebuffer := s.framebuffer
  soundOn := s.soundOn
  run := s.run
  unk := s.unk

end Sys2Proof.Machine
end

