-- ==== Sys2Proof/Safety.lean ====
section
/-! DEFINITION. The terms claims are stated in: the invariant of every run, what it means that a fault is raised, the
frames (what stays unchanged), and the access tables of the spec. -/

namespace Sys2Proof.Machine

/-! ### The invariant -/

/-- A fault record holds exactly the fields that R200's table gives its cause; the addresses and values are out of
range, as the cause says. -/
def FaultRecord.legal (r : FaultRecord) : Prop :=
  match r.cause with
  | .bounds => (∃ a, r.addr = some a ∧ 4096 ≤ a) ∧ r.value = none
  | .stackOverflow => r.word.isSome ∧ r.addr = none ∧ r.value = none
  | .stackUnderflow => r.word.isSome ∧ r.addr = none ∧ r.value = none
  | .keyIndex => r.word.isSome ∧ r.addr = none ∧ ∃ v, r.value = some v ∧ 16 ≤ v.toNat
  | .waitTarget => r.word = none ∧ r.addr = none ∧ ∃ v, r.value = some v ∧ 16 ≤ v.toNat
  | .unknownOpcode => (∃ w, r.word = some w ∧ decodeWord w = none) ∧ r.addr = none ∧ r.value = none

/-- What holds in every state reached from construction by ticks. -/
structure State.Inv (s : State) : Prop where
  /-- memory is in its canonical form -/
  memWf : s.mem.wf
  /-- SP is a legal value (R26, R123) -/
  spLegal : s.sp.toNat ≤ 15
  /-- PC is at most 4350, so that PC arithmetic never wraps (R24) -/
  pcBound : s.pc.toNat ≤ 4350
  /-- every occupied stack entry is the address after a call that was fetched from memory -/
  stackBound : ∀ j : Fin 16, 1 ≤ j.val → j.val ≤ s.sp.toNat → s.stack[j].toNat ≤ 4096
  /-- a recorded fault names the address PC still holds (R204), and its record is legal (R200, R205) -/
  recordLegal : ∀ r, s.run = .faulted r → r.pc = s.pc ∧ r.legal

/-! ### Frames -/

/-- Every register but those listed is unchanged. -/
def RegsKept (except : List Reg) (s t : State) : Prop := ∀ r : Reg, r ∉ except → t.reg r = s.reg r

/-- Every byte of memory reads as before. -/
def MemKept (s t : State) : Prop := ∀ a, t.mem.read a = s.mem.read a

/-- Every byte outside the `n` bytes from `base` reads as before. -/
def MemKeptOutside (base n : Nat) (s t : State) : Prop :=
  ∀ a, (a < base ∨ base + n ≤ a) → t.mem.read a = s.mem.read a

/-- SP and the whole stack are unchanged. -/
def StackKept (s t : State) : Prop := t.sp = s.sp ∧ t.stack = s.stack

/-- Both timers are unchanged. -/
def TimersKept (s t : State) : Prop := t.dt = s.dt ∧ t.st = s.st

/-- The model's own fields are unchanged. -/
def HostKept (s t : State) : Prop := t.policy = s.policy ∧ t.inputs = s.inputs ∧ t.freeCount = s.freeCount

/-- RUN, UNK and the model's own fields are unchanged. -/
def StatusKept (s t : State) : Prop := t.run = s.run ∧ t.unk = s.unk ∧ HostKept s t

/-- Nothing but the listed registers changes. -/
structure OnlyRegsChange (regs : List Reg) (s t : State) : Prop where
  regs : RegsKept regs s t
  mem : MemKept s t
  index : t.i = s.i
  pc : t.pc = s.pc
  stack : StackKept s t
  timers : TimersKept s t
  status : StatusKept s t

/-- Nothing but PC changes. -/
structure OnlyPcChanges (s t : State) : Prop where
  regs : RegsKept [] s t
  mem : MemKept s t
  index : t.i = s.i
  stack : StackKept s t
  timers : TimersKept s t
  status : StatusKept s t

/-- Nothing but PC, SP and the stack changes. -/
structure OnlyPcAndStackChange (s t : State) : Prop where
  regs : RegsKept [] s t
  mem : MemKept s t
  index : t.i = s.i
  timers : TimersKept s t
  status : StatusKept s t

/-- Nothing but I changes. -/
structure OnlyIndexChanges (s t : State) : Prop where
  regs : RegsKept [] s t
  mem : MemKept s t
  pc : t.pc = s.pc
  stack : StackKept s t
  timers : TimersKept s t
  status : StatusKept s t

/-- Nothing but the timers changes. -/
structure OnlyTimersChange (s t : State) : Prop where
  regs : RegsKept [] s t
  mem : MemKept s t
  index : t.i = s.i
  pc : t.pc = s.pc
  stack : StackKept s t
  status : StatusKept s t

/-- Nothing but memory and the listed registers changes; the statement that uses it says which bytes change. -/
structure OnlyMemAndRegsChange (regs : List Reg) (s t : State) : Prop where
  regs : RegsKept regs s t
  index : t.i = s.i
  pc : t.pc = s.pc
  stack : StackKept s t
  timers : TimersKept s t
  status : StatusKept s t

/-- RUN is Faulted with the given record, PC is the record's, and nothing else has changed (R204, R205). -/
structure Raised (record : FaultRecord) (s t : State) : Prop where
  run : t.run = .faulted record
  pc : t.pc = record.pc
  regs : RegsKept [] s t
  mem : MemKept s t
  index : t.i = s.i
  stack : StackKept s t
  timers : TimersKept s t
  unk : t.unk = s.unk
  host : HostKept s t

/-- The record of a fault of the executing instruction `i`: pc is the instruction's address, PC − 2 (R93, R205). -/
def execRecord (i : Instr) (s : State) (cause : FaultCause) (addr : Option Nat) (value : Option Byte) : FaultRecord :=
  { cause := cause, pc := s.pc - 2, word := some (encode i), addr := addr, value := value }

/-! ### Encodings and memory as a tick sees it -/

/-- Every word that has the row's constant digits decodes to the instruction the row builds (R74). -/
def Encodes (mask pattern : Word) (build : Word → Instr) : Prop :=
  ∀ w : Word, w &&& mask = pattern → decodeWord w = some (build w)

/-- The byte at `a` after the tick's input refresh (R92). -/
def refreshed (s : State) (a : Nat) : Byte :=
  if h : 337 ≤ a ∧ a < 353 then (if s.input.keys[a - 337] then 1 else 0) else s.mem.read a

/-- The word the tick's fetch reads (R56, R93). -/
def fetched (s : State) : Word := refreshed s s.pc.toNat ++ refreshed s (s.pc.toNat + 1)

/-- Key k is the lowest one pressed in the snapshot of the coming tick (R100). -/
def LowestPressed (s : State) (k : Fin 16) : Prop :=
  s.input.keys[k] = true ∧ ∀ j : Fin 16, j < k → s.input.keys[j] = false

/-! ### The access tables (R22, R60) -/

/-- The `written by` column of R22 for the general registers. -/
def mayWriteReg (i : Instr) (r : Reg) : Prop :=
  match i with
  | .loadImm x _ | .addImm x _ | .copy x _ | .orReg x _ | .andReg x _ | .xorReg x _ | .randAnd x _
  | .readDelay x => r = x
  | .addCarry x _ | .subBorrow x _ | .shiftRight x _ | .shiftLeft x _ => r = x ∨ r = 15
  | .subBorrowRev _ y => r = y ∨ r = 15
  | .drawSprite _ _ _ => r = 15
  | .loadRegs x => r ≤ x
  | .clearScreen | .ret | .jump _ | .call _ | .skipEqImm _ _ | .skipNeImm _ _ | .skipEqReg _ _ | .skipNeReg _ _
  | .loadIndex _ | .jumpOffset _ | .skipKeyDown _ | .skipKeyUp _ | .awaitKey _ | .writeDelay _ | .writeSound _
  | .addIndex _ | .fontAddr _ | .bcd _ | .storeRegs _ => False

/-- The instructions that write I (R22). -/
def writesIndex : Instr → Prop
  | .loadIndex _ | .addIndex _ | .fontAddr _ => True
  | _ => False

/-- The instructions that write SP and the stack (R22). -/
def writesStack : Instr → Prop
  | .call _ | .ret => True
  | _ => False

/-- The instruction that writes DT (R22). -/
def writesDelay : Instr → Prop
  | .writeDelay _ => True
  | _ => False

/-- The instruction that writes ST (R22). -/
def writesSound : Instr → Prop
  | .writeSound _ => True
  | _ => False

/-- The instructions that write PC beyond the CPU step's advance (R22). -/
def writesPc : Instr → Prop
  | .jump _ | .call _ | .ret | .jumpOffset _ | .skipEqImm _ _ | .skipNeImm _ _ | .skipEqReg _ _ | .skipNeReg _ _
  | .skipKeyDown _ | .skipKeyUp _ => True
  | _ => False

/-- The `writes` column of R60: the addresses an instruction may store to, in the state it executes in. -/
def mayStore (i : Instr) (s : State) (a : Nat) : Prop :=
  match i with
  | .clearScreen => 80 ≤ a ∧ a < 336
  | .drawSprite _ y n => ∃ k < n.toNat, rowAddr (spriteRow (s.reg y) k) ≤ a ∧ a < rowAddr (spriteRow (s.reg y) k) + 8
  | .bcd _ => s.i.toNat ≤ a ∧ a ≤ s.i.toNat + 2
  | .storeRegs x => s.i.toNat ≤ a ∧ a ≤ s.i.toNat + x.val
  | .awaitKey _ => a = 360 ∨ a = 361
  | .ret | .jump _ | .call _ | .skipEqImm _ _ | .skipNeImm _ _ | .skipEqReg _ _ | .skipNeReg _ _ | .loadImm _ _
  | .addImm _ _ | .copy _ _ | .orReg _ _ | .andReg _ _ | .xorReg _ _ | .addCarry _ _ | .subBorrow _ _
  | .shiftRight _ _ | .subBorrowRev _ _ | .shiftLeft _ _ | .loadIndex _ | .jumpOffset _ | .randAnd _ _
  | .skipKeyDown _ | .skipKeyUp _ | .readDelay _ | .writeDelay _ | .writeSound _ | .addIndex _ | .fontAddr _
  | .loadRegs _ => False

/-- How many bytes from I an instruction accesses (R60). -/
def indexSpan : Instr → Option Nat
  | .drawSprite _ _ n => some n.toNat
  | .bcd _ => some 3
  | .storeRegs x => some (x.val + 1)
  | .loadRegs x => some (x.val + 1)
  | _ => none

/-! ### The sprite, as pixels -/

/-- Pixel (px, py) is one that a draw of `n` rows toggles (R115): row k of the sprite lands on screen row
(R[y] + k) mod 32, its bit 7 − j at column R[x] mod 64 + j. -/
def spriteLit (s : State) (x y : Reg) (n : Nat) (px py : Nat) : Prop :=
  ∃ k < n, ((s.reg y).toNat + k) % 32 = py ∧ (s.reg x).toNat % 64 ≤ px ∧ px < (s.reg x).toNat % 64 + 8 ∧
    (s.mem.read (s.i.toNat + k)).getLsbD (7 - (px - (s.reg x).toNat % 64)) = true

/-- The sprite data lies outside the rows that the draw writes (the premise of R116 (e)). -/
def SpriteOutsideRows (s : State) (y : Reg) (n : Nat) : Prop :=
  ∀ k < n, ∀ j < n, s.i.toNat + k < rowAddr (spriteRow (s.reg y) j) ∨ rowAddr (spriteRow (s.reg y) j) + 8 ≤ s.i.toNat + k

end Sys2Proof.Machine
end

