-- ==== Sys2Proof/Certificates/Slice0/Obligations.lean ====
section
/-! DEFINITION. The statements about the model, from the spec's numbered rules. `exec i s` runs in the state after the
PC advance (spec 40_cycle.md R93), so that "PC unchanged" there means PC = pc0 + 2. Numbers are compared as naturals,
so that a carry, a wrap or a strict comparison is said in plain arithmetic. -/

open Sys2Proof Sys2Proof.Machine

/-! ### Encoding (30_encoding.md) -/

/-- Decoding the word of any instruction, or its two bytes followed by any others, gives the instruction back. -/
def Obligations.DecodeOfEncodeIsInstruction : Prop :=
  ∀ (i : Instr) (rest : List Byte),
    decodeWord (encode i) = some i ∧ decode (wordBytes (encode i) ++ rest) = .instr i rest

/-- Encoding a decoded instruction gives the word it came from: no bit of a recognized word is dropped. -/
def Obligations.EncodeOfDecodeIsWord : Prop :=
  ∀ (w : Word) (i : Instr), decodeWord w = some i → encode i = w

/-- R74 and 95_test_vectors.md E1, E2, E4, E7, E11, E12, K3, A1, D2, J1: words and the instructions they stand for. -/
def Obligations.SpecWordsDecode : Prop :=
  decodeWord 0x00E0 = some .clearScreen ∧ decodeWord 0x00EE = some .ret ∧
  decodeWord 0x5120 = some (.skipEqReg 1 2) ∧ decodeWord 0x812E = some (.shiftLeft 1 2) ∧
  decodeWord 0xF129 = some (.fontAddr 1) ∧ decodeWord 0xD000 = some (.drawSprite 0 0 0) ∧
  decodeWord 0x6A9D = some (.loadImm 10 0x9D) ∧ decodeWord 0x8014 = some (.addCarry 0 1) ∧
  decodeWord 0xD011 = some (.drawSprite 0 1 1) ∧ decodeWord 0x1234 = some (.jump 0x234)

/-- R76: the unknown words are exactly these. -/
def Obligations.UnknownWordsAreExactly : Prop :=
  ∀ w : Word, decodeWord w = none ↔
    (w.toNat / 4096 = 0 ∧ w ≠ 0x00E0 ∧ w ≠ 0x00EE) ∨
    (w.toNat / 4096 = 5 ∧ w.toNat % 16 ≠ 0) ∨
    (w.toNat / 4096 = 8 ∧ w.toNat % 16 ∈ [8, 9, 10, 11, 12, 13, 15]) ∨
    (w.toNat / 4096 = 9 ∧ w.toNat % 16 ≠ 0) ∨
    (w.toNat / 4096 = 14 ∧ w.toNat % 256 ∉ [0x9E, 0xA1]) ∨
    (w.toNat / 4096 = 15 ∧ w.toNat % 256 ∉ [0x07, 0x0A, 0x15, 0x18, 0x1E, 0x29, 0x33, 0x55, 0x65])

/-- R75: no two rows match the same word, and the order of the rows changes no result. -/
def Obligations.OpcodeRowOrderIsImmaterial : Prop :=
  (∀ (w : Word), ∀ r ∈ opcodeTable, ∀ q ∈ opcodeTable, w &&& r.mask = r.pattern → w &&& q.mask = q.pattern → r = q) ∧
  ∀ (rows : List OpcodeRow), rows.Perm opcodeTable →
    ∀ w : Word, (rows.find? (·.selects w)).map (·.build w) = decodeWord w

/-- R80, R81: the line that names an instruction assembles to exactly its one word. -/
def Obligations.AssembledLineIsOneWord : Prop :=
  ∀ i : Instr, assemble [disassemble i] = some (wordBytes (encode i))

/-! ### Register and arithmetic family (43_alu.md) -/

/-- R140. -/
def Obligations.LoadImmWritesImmediate : Prop :=
  Encodes 0xF000 0x6000 (fun w => .loadImm (fieldX w) (fieldKk w)) ∧
  ∀ (x : Reg) (kk : Byte) (s : State), ∃ t, exec (.loadImm x kk) s = .next t ∧
    t.reg x = kk ∧ OnlyRegsChange [x] s t

/-- R141: no flag; R15 is unchanged unless x = 15. -/
def Obligations.AddImmWrapsWithoutFlag : Prop :=
  Encodes 0xF000 0x7000 (fun w => .addImm (fieldX w) (fieldKk w)) ∧
  ∀ (x : Reg) (kk : Byte) (s : State), ∃ t, exec (.addImm x kk) s = .next t ∧
    (t.reg x).toNat = ((s.reg x).toNat + kk.toNat) % 256 ∧ OnlyRegsChange [x] s t

/-- R142, R143, R144, R145: the copy and the logic forms, bit by bit; none writes a flag. -/
def Obligations.CopyAndLogicWriteRx : Prop :=
  Encodes 0xF00F 0x8000 (fun w => .copy (fieldX w) (fieldY w)) ∧
  Encodes 0xF00F 0x8001 (fun w => .orReg (fieldX w) (fieldY w)) ∧
  Encodes 0xF00F 0x8002 (fun w => .andReg (fieldX w) (fieldY w)) ∧
  Encodes 0xF00F 0x8003 (fun w => .xorReg (fieldX w) (fieldY w)) ∧
  ∀ (x y : Reg) (s : State),
    (∃ t, exec (.copy x y) s = .next t ∧ t.reg x = s.reg y ∧ OnlyRegsChange [x] s t) ∧
    (∃ t, exec (.orReg x y) s = .next t ∧ OnlyRegsChange [x] s t ∧
      ∀ b, (t.reg x).getLsbD b = ((s.reg x).getLsbD b || (s.reg y).getLsbD b)) ∧
    (∃ t, exec (.andReg x y) s = .next t ∧ OnlyRegsChange [x] s t ∧
      ∀ b, (t.reg x).getLsbD b = ((s.reg x).getLsbD b && (s.reg y).getLsbD b)) ∧
    (∃ t, exec (.xorReg x y) s = .next t ∧ OnlyRegsChange [x] s t ∧
      ∀ b, (t.reg x).getLsbD b = ((s.reg x).getLsbD b ^^ (s.reg y).getLsbD b))

/-- R146: R15 is the carry of the old operands, also when x is 15; else Rx is the sum modulo 256. -/
def Obligations.AddCarryWritesSumThenCarry : Prop :=
  Encodes 0xF00F 0x8004 (fun w => .addCarry (fieldX w) (fieldY w)) ∧
  ∀ (x y : Reg) (s : State), ∃ t, exec (.addCarry x y) s = .next t ∧
    (t.reg 15).toNat = (if (s.reg x).toNat + (s.reg y).toNat > 255 then 1 else 0) ∧
    (x ≠ 15 → (t.reg x).toNat = ((s.reg x).toNat + (s.reg y).toNat) % 256) ∧
    OnlyRegsChange [x, 15] s t

/-- R147: R15 takes the strict comparison first; the subtraction then reads R15 as written where x or y is 15. -/
def Obligations.SubBorrowWritesFlagThenDifference : Prop :=
  Encodes 0xF00F 0x8005 (fun w => .subBorrow (fieldX w) (fieldY w)) ∧
  ∀ (x y : Reg) (s : State), ∃ t, exec (.subBorrow x y) s = .next t ∧
    (∃ f : Nat, f = (if (s.reg x).toNat > (s.reg y).toNat then 1 else 0) ∧
      (t.reg x).toNat =
        ((if x = 15 then f else (s.reg x).toNat) + 256 - (if y = 15 then f else (s.reg y).toNat)) % 256 ∧
      (x ≠ 15 → (t.reg 15).toNat = f)) ∧
    OnlyRegsChange [x, 15] s t

/-- R148 (and R79: the result does not depend on y). -/
def Obligations.ShiftRightStoresShiftedValue : Prop :=
  Encodes 0xF00F 0x8006 (fun w => .shiftRight (fieldX w) (fieldY w)) ∧
  ∀ (x y : Reg) (s : State), ∃ t, exec (.shiftRight x y) s = .next t ∧
    (x ≠ 15 → (t.reg x).toNat = (s.reg x).toNat / 2 ∧ (t.reg 15).toNat = (s.reg x).toNat % 2) ∧
    (x = 15 → (t.reg 15).toNat = 0) ∧
    OnlyRegsChange [x, 15] s t

/-- R149: the destination is Ry. -/
def Obligations.SubBorrowRevWritesRy : Prop :=
  Encodes 0xF00F 0x8007 (fun w => .subBorrowRev (fieldX w) (fieldY w)) ∧
  ∀ (x y : Reg) (s : State), ∃ t, exec (.subBorrowRev x y) s = .next t ∧
    (∃ f : Nat, f = (if (s.reg y).toNat > (s.reg x).toNat then 1 else 0) ∧
      (t.reg y).toNat =
        ((if y = 15 then f else (s.reg y).toNat) + 256 - (if x = 15 then f else (s.reg x).toNat)) % 256 ∧
      (y ≠ 15 → (t.reg 15).toNat = f)) ∧
    OnlyRegsChange [y, 15] s t

/-- R150 (and R79): for x = 15 the register ends 0 or 2. -/
def Obligations.ShiftLeftStoresShiftedValue : Prop :=
  Encodes 0xF00F 0x800E (fun w => .shiftLeft (fieldX w) (fieldY w)) ∧
  ∀ (x y : Reg) (s : State), ∃ t, exec (.shiftLeft x y) s = .next t ∧
    (x ≠ 15 → (t.reg x).toNat = ((s.reg x).toNat * 2) % 256 ∧ (t.reg 15).toNat = (s.reg x).toNat / 128) ∧
    (x = 15 → (t.reg 15).toNat = ((s.reg 15).toNat / 128) * 2) ∧
    OnlyRegsChange [x, 15] s t

/-- R151: the tick's random byte, whatever it is, ANDed with kk; so no bit outside kk is set. -/
def Obligations.RandAndMasksRandomByte : Prop :=
  Encodes 0xF000 0xC000 (fun w => .randAnd (fieldX w) (fieldKk w)) ∧
  ∀ (x : Reg) (kk : Byte) (s : State), ∃ t, exec (.randAnd x kk) s = .next t ∧
    t.reg x = s.input.rnd &&& kk ∧ t.reg x &&& ~~~kk = 0 ∧ OnlyRegsChange [x] s t

/-! ### Control-transfer family (42_control.md) -/

/-- R120. -/
def Obligations.JumpSetsPc : Prop :=
  Encodes 0xF000 0x1000 (fun w => .jump (fieldNnn w)) ∧
  ∀ (nnn : Addr12) (s : State), ∃ t, exec (.jump nnn) s = .next t ∧
    t.pc.toNat = nnn.toNat ∧ OnlyPcChanges s t

/-- R121: underflow at SP = 0; else the return to stack[SP], the stack's entries left in place. -/
def Obligations.ReturnPopsOrUnderflows : Prop :=
  Encodes 0xFFFF 0x00EE (fun _ => .ret) ∧
  ∀ s : State,
    (s.sp = 0 → ∃ t, exec .ret s = .next t ∧ Raised (execRecord .ret s .stackUnderflow none none) s t) ∧
    ∀ j : Fin 16, s.sp.toNat = j.val → 1 ≤ j.val → ∃ t, exec .ret s = .next t ∧
      t.pc = s.stack[j] ∧ t.sp.toNat = j.val - 1 ∧ t.stack = s.stack ∧ OnlyPcAndStackChange s t

/-- The model's choice, not a rule of the spec (log entry 6): above SP = 15, which R26 calls no legal value, there is
no stack entry and `return` stops by name. -/
def Obligations.ReturnAboveStackStops : Prop :=
  ∀ s : State, 15 < s.sp.toNat → exec .ret s = .fault .noStackEntry

/-- R122: overflow at SP = 15 (or above); else the advanced PC is pushed at SP + 1, the other entries kept. -/
def Obligations.CallPushesOrOverflows : Prop :=
  Encodes 0xF000 0x2000 (fun w => .call (fieldNnn w)) ∧
  ∀ (nnn : Addr12) (s : State),
    (15 ≤ s.sp.toNat → ∃ t, exec (.call nnn) s = .next t ∧
      Raised (execRecord (.call nnn) s .stackOverflow none none) s t) ∧
    (s.sp.toNat < 15 → ∃ t, exec (.call nnn) s = .next t ∧
      t.sp.toNat = s.sp.toNat + 1 ∧ t.pc.toNat = nnn.toNat ∧
      (∀ j : Fin 16, t.stack[j] = if j.val = s.sp.toNat + 1 then s.pc else s.stack[j]) ∧
      OnlyPcAndStackChange s t)

/-- R124, R125: the skips on an immediate pass exactly two bytes. -/
def Obligations.SkipOnImmediate : Prop :=
  Encodes 0xF000 0x3000 (fun w => .skipEqImm (fieldX w) (fieldKk w)) ∧
  Encodes 0xF000 0x4000 (fun w => .skipNeImm (fieldX w) (fieldKk w)) ∧
  ∀ (x : Reg) (kk : Byte) (s : State),
    (∃ t, exec (.skipEqImm x kk) s = .next t ∧ OnlyPcChanges s t ∧
      t.pc.toNat = if (s.reg x).toNat = kk.toNat then (s.pc.toNat + 2) % 65536 else s.pc.toNat) ∧
    (∃ t, exec (.skipNeImm x kk) s = .next t ∧ OnlyPcChanges s t ∧
      t.pc.toNat = if (s.reg x).toNat = kk.toNat then s.pc.toNat else (s.pc.toNat + 2) % 65536)

/-- R126, R127: the skips on two registers. -/
def Obligations.SkipOnRegisters : Prop :=
  Encodes 0xF00F 0x5000 (fun w => .skipEqReg (fieldX w) (fieldY w)) ∧
  Encodes 0xF00F 0x9000 (fun w => .skipNeReg (fieldX w) (fieldY w)) ∧
  ∀ (x y : Reg) (s : State),
    (∃ t, exec (.skipEqReg x y) s = .next t ∧ OnlyPcChanges s t ∧
      t.pc.toNat = if (s.reg x).toNat = (s.reg y).toNat then (s.pc.toNat + 2) % 65536 else s.pc.toNat) ∧
    (∃ t, exec (.skipNeReg x y) s = .next t ∧ OnlyPcChanges s t ∧
      t.pc.toNat = if (s.reg x).toNat = (s.reg y).toNat then s.pc.toNat else (s.pc.toNat + 2) % 65536)

/-- R128: the target is R0 + nnn without a wrap; a target at or past 4095 faults at the next fetch, not here. -/
def Obligations.JumpOffsetAddsR0 : Prop :=
  Encodes 0xF000 0xB000 (fun w => .jumpOffset (fieldNnn w)) ∧
  ∀ (nnn : Addr12) (s : State), ∃ t, exec (.jumpOffset nnn) s = .next t ∧
    t.pc.toNat = (s.reg 0).toNat + nnn.toNat ∧ OnlyPcChanges s t

/-- 42_control.md R121, R122 (the source's property S7): a return after a call whose body left SP and the stack as the
call made them lands on the instruction after the call, with the caller's SP. -/
def Obligations.CallThenReturnResumesAfterCall : Prop :=
  ∀ (nnn : Addr12) (s : State), s.sp.toNat < 15 → ∃ t, exec (.call nnn) s = .next t ∧
    ∀ u : State, u.sp = t.sp → u.stack = t.stack →
      ∃ v, exec .ret u = .next v ∧ v.pc = s.pc ∧ v.sp = s.sp

/-! ### Index register and memory family (44_index_memory.md) -/

/-- R160, R161, R162: the three writes of I; none is an access and none writes a flag. -/
def Obligations.IndexWrites : Prop :=
  Encodes 0xF000 0xA000 (fun w => .loadIndex (fieldNnn w)) ∧
  Encodes 0xF0FF 0xF01E (fun w => .addIndex (fieldX w)) ∧
  Encodes 0xF0FF 0xF029 (fun w => .fontAddr (fieldX w)) ∧
  ∀ s : State,
    (∀ nnn : Addr12, ∃ t, exec (.loadIndex nnn) s = .next t ∧ t.i.toNat = nnn.toNat ∧ OnlyIndexChanges s t) ∧
    (∀ x : Reg, ∃ t, exec (.addIndex x) s = .next t ∧
      t.i.toNat = (s.i.toNat + (s.reg x).toNat) % 65536 ∧ OnlyIndexChanges s t) ∧
    (∀ x : Reg, ∃ t, exec (.fontAddr x) s = .next t ∧ t.i.toNat = 5 * (s.reg x).toNat ∧ OnlyIndexChanges s t)

/-- R163: hundreds, tens, ones at I, I+1, I+2, or BOUNDS with the lowest address past memory and nothing written. -/
def Obligations.BcdStoresDigitsOrFaults : Prop :=
  Encodes 0xF0FF 0xF033 (fun w => .bcd (fieldX w)) ∧
  ∀ (x : Reg) (s : State),
    (4096 ≤ s.i.toNat + 2 → ∃ t, exec (.bcd x) s = .next t ∧
      Raised (execRecord (.bcd x) s .bounds (some (max s.i.toNat 4096)) none) s t) ∧
    (s.i.toNat + 2 < 4096 → ∃ t, exec (.bcd x) s = .next t ∧
      (t.mem.read s.i.toNat).toNat = (s.reg x).toNat / 100 ∧
      (t.mem.read (s.i.toNat + 1)).toNat = (s.reg x).toNat / 10 % 10 ∧
      (t.mem.read (s.i.toNat + 2)).toNat = (s.reg x).toNat % 10 ∧
      MemKeptOutside s.i.toNat 3 s t ∧ OnlyMemAndRegsChange [] s t)

/-- R164: R0..Rx at I..I+x, or BOUNDS and nothing written. -/
def Obligations.StoreRegsStoresOrFaults : Prop :=
  Encodes 0xF0FF 0xF055 (fun w => .storeRegs (fieldX w)) ∧
  ∀ (x : Reg) (s : State),
    (4096 ≤ s.i.toNat + x.val → ∃ t, exec (.storeRegs x) s = .next t ∧
      Raised (execRecord (.storeRegs x) s .bounds (some (max s.i.toNat 4096)) none) s t) ∧
    (s.i.toNat + x.val < 4096 → ∃ t, exec (.storeRegs x) s = .next t ∧
      (∀ j : Reg, j ≤ x → t.mem.read (s.i.toNat + j.val) = s.reg j) ∧
      MemKeptOutside s.i.toNat (x.val + 1) s t ∧ OnlyMemAndRegsChange [] s t)

/-- R165: R0..Rx from I..I+x, the registers above x kept, or BOUNDS and no register written. -/
def Obligations.LoadRegsLoadsOrFaults : Prop :=
  Encodes 0xF0FF 0xF065 (fun w => .loadRegs (fieldX w)) ∧
  ∀ (x : Reg) (s : State),
    (4096 ≤ s.i.toNat + x.val → ∃ t, exec (.loadRegs x) s = .next t ∧
      Raised (execRecord (.loadRegs x) s .bounds (some (max s.i.toNat 4096)) none) s t) ∧
    (s.i.toNat + x.val < 4096 → ∃ t, exec (.loadRegs x) s = .next t ∧
      (∀ j : Reg, t.reg j = if j ≤ x then s.mem.read (s.i.toNat + j.val) else s.reg j) ∧
      MemKept s t ∧ OnlyMemAndRegsChange ((List.finRange 16).filter (· ≤ x)) s t)

/-! ### Key and timer family (45_keys_timers.md) -/

/-- R180, R181: the key tests skip on the cell of the key that Rx names, and raise KEY_INDEX where it names none. -/
def Obligations.SkipOnKeyOrFaults : Prop :=
  Encodes 0xF0FF 0xE09E (fun w => .skipKeyDown (fieldX w)) ∧
  Encodes 0xF0FF 0xE0A1 (fun w => .skipKeyUp (fieldX w)) ∧
  ∀ (x : Reg) (s : State),
    (16 ≤ (s.reg x).toNat →
      (∃ t, exec (.skipKeyDown x) s = .next t ∧
        Raised (execRecord (.skipKeyDown x) s .keyIndex none (some (s.reg x))) s t) ∧
      (∃ t, exec (.skipKeyUp x) s = .next t ∧
        Raised (execRecord (.skipKeyUp x) s .keyIndex none (some (s.reg x))) s t)) ∧
    ((s.reg x).toNat < 16 →
      (∃ t, exec (.skipKeyDown x) s = .next t ∧ OnlyPcChanges s t ∧
        t.pc.toNat = if s.mem.read (337 + (s.reg x).toNat) = 0 then s.pc.toNat else (s.pc.toNat + 2) % 65536) ∧
      (∃ t, exec (.skipKeyUp x) s = .next t ∧ OnlyPcChanges s t ∧
        t.pc.toNat = if s.mem.read (337 + (s.reg x).toNat) = 0 then (s.pc.toNat + 2) % 65536 else s.pc.toNat))

/-- R182, R184, R185: the timer transfers; DT is read before the tick's timer step. -/
def Obligations.TimerTransfers : Prop :=
  Encodes 0xF0FF 0xF007 (fun w => .readDelay (fieldX w)) ∧
  Encodes 0xF0FF 0xF015 (fun w => .writeDelay (fieldX w)) ∧
  Encodes 0xF0FF 0xF018 (fun w => .writeSound (fieldX w)) ∧
  ∀ (x : Reg) (s : State),
    (∃ t, exec (.readDelay x) s = .next t ∧ t.reg x = s.dt ∧ OnlyRegsChange [x] s t) ∧
    (∃ t, exec (.writeDelay x) s = .next t ∧ t.dt = s.reg x ∧ t.st = s.st ∧ OnlyTimersChange s t) ∧
    (∃ t, exec (.writeSound x) s = .next t ∧ t.st = s.reg x ∧ t.dt = s.dt ∧ OnlyTimersChange s t)

/-- R183: WAIT_TARGET takes x and WAIT_FLAG takes 1; no register is written. -/
def Obligations.AwaitKeyEntersWait : Prop :=
  Encodes 0xF0FF 0xF00A (fun w => .awaitKey (fieldX w)) ∧
  ∀ (x : Reg) (s : State), ∃ t, exec (.awaitKey x) s = .next t ∧
    t.mem.read 360 = 1 ∧ (t.mem.read 361).toNat = x.val ∧
    t.waitFsm = .waitingForKey (BitVec.ofNat 8 x.val) ∧
    MemKeptOutside 360 2 s t ∧ OnlyMemAndRegsChange [] s t

/-! ### Display family (41_display.md) -/

/-- R112. -/
def Obligations.ClearScreenZerosFramebuffer : Prop :=
  Encodes 0xFFFF 0x00E0 (fun _ => .clearScreen) ∧
  ∀ s : State, ∃ t, exec .clearScreen s = .next t ∧
    (∀ a, 80 ≤ a → a < 336 → t.mem.read a = 0) ∧ MemKeptOutside 80 256 s t ∧ OnlyMemAndRegsChange [] s t

/-- R111: a row's value has pixel (px, r) in bit 63 − px; writing a row value stores its eight bytes and nothing else;
reading it back gives it. -/
def Obligations.RowValueRoundTrip : Prop :=
  ∀ (m : Memory) (r : Nat), r < 32 →
    (∀ px, px < 64 → (m.readRow r).getLsbD (63 - px) = (m.read (80 + 8 * r + px / 8)).getLsbD (7 - px % 8)) ∧
    ∀ v : RowBits,
      (m.writeRow r v).readRow r = v ∧
      (∀ k, k < 8 → (m.writeRow r v).read (80 + 8 * r + k) = v.extractLsb' (56 - 8 * k) 8) ∧
      (∀ a, (a < 80 + 8 * r ∨ 80 + 8 * r + 8 ≤ a) → (m.writeRow r v).read a = m.read a)

/-- R113, for every placement of the sprite data, overlapping the rows drawn or not: the memories M 0 … M n after each
row, where row k is read, XORed with the lane of the sprite byte read after rows 0..k−1, and written; R15 is 1 iff some
row turned a lit pixel off; or BOUNDS with the lowest address past memory and nothing drawn. -/
def Obligations.DrawSpriteRowByRow : Prop :=
  Encodes 0xF000 0xD000 (fun w => .drawSprite (fieldX w) (fieldY w) (fieldN w)) ∧
  ∀ (x y : Reg) (n : Nibble) (s : State),
    (n.toNat ≠ 0 → 4096 < s.i.toNat + n.toNat → ∃ t, exec (.drawSprite x y n) s = .next t ∧
      Raised (execRecord (.drawSprite x y n) s .bounds (some (max s.i.toNat 4096)) none) s t) ∧
    (n.toNat = 0 ∨ s.i.toNat + n.toNat ≤ 4096 → ∃ t, exec (.drawSprite x y n) s = .next t ∧
      ∃ (M : Nat → Memory) (row : Nat → Nat) (lane : Nat → RowBits),
        M 0 = s.mem ∧ M n.toNat = t.mem ∧
        (∀ k, row k = ((s.reg y).toNat + k) % 32) ∧
        (∀ k, lane k = (((M k).read (s.i.toNat + k)).setWidth 64 <<< 56) >>> ((s.reg x).toNat % 64)) ∧
        (∀ k < n.toNat, ∀ a, (M (k + 1)).read a =
          if 80 + 8 * row k ≤ a ∧ a < 80 + 8 * row k + 8 then
            ((M k).readRow (row k) ^^^ lane k).extractLsb' (56 - 8 * (a - (80 + 8 * row k))) 8
          else (M k).read a) ∧
        (t.reg 15 = 0 ∨ t.reg 15 = 1) ∧
        (t.reg 15 = 1 ↔ ∃ k < n.toNat,
          (M k).readRow (row k) &&& ~~~((M k).readRow (row k) ^^^ lane k) ≠ 0) ∧
        OnlyMemAndRegsChange [15] s t)

/-- R110, R114, R115: with the sprite data outside the rows drawn, a draw toggles exactly the pixels the sprite lights,
wrapped vertically and clipped at the right edge, and R15 says whether a lit pixel was turned off. -/
def Obligations.DrawSpriteTogglesPixels : Prop :=
  ∀ (x y : Reg) (n : Nibble) (s : State), s.i.toNat + n.toNat ≤ 4096 → SpriteOutsideRows s y n.toNat →
    ∃ t, exec (.drawSprite x y n) s = .next t ∧
      (∀ px py, px < 64 → py < 32 →
        (t.pixel px py = true ↔ ¬(s.pixel px py = true ↔ spriteLit s x y n.toNat px py))) ∧
      (t.reg 15 = 1 ↔ ∃ px py, px < 64 ∧ py < 32 ∧ s.pixel px py = true ∧ t.pixel px py = false) ∧
      (t.reg 15 = 0 ∨ t.reg 15 = 1)

/-- R116 (e): drawing the same sprite at the same position twice restores the framebuffer, and the second draw's R15 is
1 iff the first turned a pixel on. -/
def Obligations.DrawTwiceRestoresFramebuffer : Prop :=
  ∀ (x y : Reg) (n : Nibble) (s : State), x ≠ 15 → y ≠ 15 → s.i.toNat + n.toNat ≤ 4096 →
    SpriteOutsideRows s y n.toNat →
    ∃ t u, exec (.drawSprite x y n) s = .next t ∧ exec (.drawSprite x y n) t = .next u ∧
      MemKept s u ∧
      (u.reg 15 = 1 ↔ ∃ px py, px < 64 ∧ py < 32 ∧ s.pixel px py = false ∧ t.pixel px py = true)

/-! ### The tick (40_cycle.md) -/

/-- R93, R95, with what the tick adds around `exec`: when the machine runs, does not wait, and the two bytes at PC (as
the input refresh leaves them) decode to i, the step is exec of i in the refreshed state with PC advanced by 2, then the
timer step unless i faulted, then the host input used up. -/
def Obligations.StepRunsDecodedInstruction : Prop :=
  ∀ (s : State) (i : Instr), s.run = .running → s.mem.read 360 = 0 → s.pc.toNat + 2 ≤ 4096 →
    decode [refreshed s s.pc.toNat, refreshed s (s.pc.toNat + 1)] = .instr i [] →
    step s = match exec i (s.inputRefresh.setPc (s.pc + 2)) with
      | .next u => .next (if u.run = .running then u.timerStep else u).consumeInput
      | .fault e => .fault e
      | .refused e => .refused e

/-- The model's placement of a word (`withFetchWord`, which is the model's own and no rule of the spec: DESIGN CHOICE, log
entry 11; that it makes RUN Running and byte 360 zero is part of that choice): from any state, the step after it runs
exactly the instruction placed. -/
def Obligations.PlacedWordIsExecuted : Prop :=
  ∀ (s : State) (w : Word) (i : Instr), decodeWord w = some i →
    ∃ p : State, s.withFetchWord 16 w.toNat = p ∧ p.run = .running ∧ p.mem.read 360 = 0 ∧
      p.pc.toNat + 2 ≤ 4096 ∧ fetched p = w ∧ RegsKept [] s p ∧
      step p = Result.andThen (exec i p.inputRefresh.advancePc) (fun u => u.timerStepIfRunning.consumeInput)

/-- R92: every tick of a Running machine works on memory whose key cells hold the snapshot; the refresh changes nothing
else. -/
def Obligations.InputRefreshWritesKeyCells : Prop :=
  (∀ s : State, s.run = .running → step s = s.inputRefresh.phase2.andThen State.consumeInput) ∧
  ∀ s : State,
    (∀ k : Fin 16, s.inputRefresh.mem.read (337 + k.val) = if s.input.keys[k] = true then 1 else 0) ∧
    MemKeptOutside 337 16 s s.inputRefresh ∧ OnlyMemAndRegsChange [] s s.inputRefresh

/-- R94: a fetch past memory faults at the first out-of-range address, with no word; only the input refresh stays. -/
def Obligations.FetchPastMemoryFaults : Prop :=
  ∀ s : State, s.run = .running → s.mem.read 360 = 0 → 4096 ≤ s.pc.toNat + 1 →
    ∃ t, step s = .next t ∧
      t.run = .faulted
        { cause := .bounds, pc := s.pc, word := none, value := none,
          addr := some (if 4096 ≤ s.pc.toNat then s.pc.toNat else s.pc.toNat + 1) } ∧
      t.pc = s.pc ∧ RegsKept [] s t ∧ t.i = s.i ∧ StackKept s t ∧ TimersKept s t ∧ t.unk = s.unk ∧
      ∀ a, t.mem.read a = refreshed s a

/-- R96: an unknown opcode under each policy. Under NOP PC has advanced, UNK is set, the timer step has run and nothing
else has changed; under FAULT the machine is Faulted at the word. -/
def Obligations.UnknownOpcodeFollowsPolicy : Prop :=
  ∀ s : State, s.run = .running → s.mem.read 360 = 0 → s.pc.toNat + 2 ≤ 4096 → decodeWord (fetched s) = none →
    ∃ t, step s = .next t ∧ RegsKept [] s t ∧ t.i = s.i ∧ StackKept s t ∧ (∀ a, t.mem.read a = refreshed s a) ∧
      (s.policy = .nop → t.run = .running ∧ t.unk = true ∧ t.pc.toNat = s.pc.toNat + 2 ∧
        t.dt.toNat = s.dt.toNat - 1 ∧ t.st.toNat = s.st.toNat - 1) ∧
      (s.policy = .fault → t.run = .faulted ⟨.unknownOpcode, s.pc, some (fetched s), none, none⟩ ∧
        t.unk = s.unk ∧ t.pc = s.pc ∧ TimersKept s t)

/-- R98: after a CPU step that completed, each timer is one less, or stays at 0; nothing else changes with it. -/
def Obligations.TimersCountCompletedInstructions : Prop :=
  ∀ (s u : State) (i : Instr), s.run = .running → s.mem.read 360 = 0 → s.pc.toNat + 2 ≤ 4096 →
    decodeWord (fetched s) = some i → exec i s.inputRefresh.advancePc = .next u → u.run = .running →
    ∃ t, step s = .next t ∧
      t.dt.toNat = (if 0 < u.dt.toNat then u.dt.toNat - 1 else u.dt.toNat) ∧
      t.st.toNat = (if 0 < u.st.toNat then u.st.toNat - 1 else u.st.toNat) ∧
      RegsKept [] u t ∧ MemKept u t ∧ t.i = u.i ∧ t.pc = u.pc ∧ StackKept u t ∧ t.run = u.run ∧ t.unk = u.unk

/-- R102, R185 (and R98): a tick that executes `write-sound Rx` exposes the sound as on iff Rx was above 1, because the
timer step runs before the exposure; the framebuffer it exposes is bytes 80..335. -/
def Obligations.SoundOutputAfterWriteSound : Prop :=
  ∀ (s : State) (x : Reg), s.run = .running → s.mem.read 360 = 0 → s.pc.toNat + 2 ≤ 4096 →
    decodeWord (fetched s) = some (.writeSound x) →
    ∃ t, step s = .next t ∧ t.st.toNat = (s.reg x).toNat - 1 ∧
      (t.expose.soundOn = true ↔ 1 < (s.reg x).toNat) ∧ t.expose.run = .running ∧ t.expose.unk = s.unk ∧
      t.expose.framebuffer.length = 256 ∧ ∀ k, k < 256 → t.expose.framebuffer[k]? = some (s.mem.read (80 + k))

/-- R91, R99, R100: a tick that begins waiting runs no instruction and no timer step. With no key pressed only the key
cells are refreshed; with a key pressed the lowest one's index goes to the target register and WAIT_FLAG to 0,
WAIT_TARGET unchanged; a target above 15 faults with nothing written. -/
def Obligations.WaitingTickResolvesLowestKey : Prop :=
  ∀ s : State, s.run = .running → s.mem.read 360 ≠ 0 →
    ∃ t, step s = .next t ∧
      t.pc = s.pc ∧ t.i = s.i ∧ StackKept s t ∧ TimersKept s t ∧ t.unk = s.unk ∧
      ((∀ k : Fin 16, s.input.keys[k] = false) →
        t.run = .running ∧ RegsKept [] s t ∧ ∀ a, t.mem.read a = refreshed s a) ∧
      (∀ k : Fin 16, LowestPressed s k →
        (∀ r : Reg, (s.mem.read 361).toNat = r.val →
          t.run = .running ∧ (t.reg r).toNat = k.val ∧ RegsKept [r] s t ∧
          ∀ a, t.mem.read a = if a = 360 then 0 else refreshed s a) ∧
        (16 ≤ (s.mem.read 361).toNat →
          t.run = .faulted ⟨.waitTarget, s.pc, none, none, some (s.mem.read 361)⟩ ∧ RegsKept [] s t ∧
          ∀ a, t.mem.read a = refreshed s a))

/-- R183, R100, R101 (the source's property S8): the tick that executes `await-key` advances PC past it and runs its
timer step; the next tick, with a key pressed, stores the lowest key, runs no timer step and leaves PC there. -/
def Obligations.AwaitKeyResolvesOnNextTick : Prop :=
  ∀ (s : State) (x : Reg) (k : Fin 16) (now later : TickInput) (rest : List TickInput),
    s.run = .running → s.mem.read 360 = 0 → s.pc.toNat + 2 ≤ 4096 → s.inputs = now :: later :: rest →
    decodeWord (fetched s) = some (.awaitKey x) →
    later.keys[k] = true → (∀ j : Fin 16, j < k → later.keys[j] = false) →
    ∃ t u, step s = .next t ∧ step t = .next u ∧
      t.pc.toNat = s.pc.toNat + 2 ∧ t.dt.toNat = s.dt.toNat - 1 ∧ RegsKept [] s t ∧ t.mem.read 360 ≠ 0 ∧
      u.run = .running ∧ (u.reg x).toNat = k.val ∧ RegsKept [x] s u ∧ u.pc = t.pc ∧ TimersKept t u ∧
      u.mem.read 360 = 0 ∧ u.inputs = rest

/-- R103: a tick of a Faulted machine changes no state. -/
def Obligations.FaultedTickChangesNothing : Prop :=
  ∀ (s : State) (r : FaultRecord), s.run = .faulted r →
    step s = .next s ∧ ∀ input : TickInput, tickWith input s = .next s

/-- R97: a tick that executes no `rand-and` (because it waits, or its fetch faults, or its word is another, or the
machine is Faulted) answers the same whatever its random byte is. -/
def Obligations.OnlyRandAndSeesRandomByte : Prop :=
  ∀ (s : State) (keys : Vector Bool 16) (rnd rnd' : Byte),
    (s.run = .running → s.mem.read 360 = 0 → s.pc.toNat + 2 ≤ 4096 →
      ∀ x kk, decodeWord (fetched { s with inputs := ⟨keys, rnd⟩ :: s.inputs }) ≠ some (.randAnd x kk)) →
    tickWith ⟨keys, rnd⟩ s = tickWith ⟨keys, rnd'⟩ s

/-! ### Faults (60_exceptions.md) -/

/-- R204: a step that raises a fault leaves everything but the input refresh, RUN and the host's own fields as it was;
PC is the faulting instruction's address, which is the record's pc; the timer step does not run. -/
def Obligations.FaultsArePrecise : Prop :=
  ∀ (s t : State) (r : FaultRecord), s.run = .running → step s = .next t → t.run = .faulted r →
    r.pc = s.pc ∧ t.pc = s.pc ∧ RegsKept [] s t ∧ (∀ a, t.mem.read a = refreshed s a) ∧ t.i = s.i ∧
    StackKept s t ∧ TimersKept s t ∧ t.unk = s.unk ∧ t.policy = s.policy

/-- R200, R209: which step raises which cause, with what it records. -/
def Obligations.EveryFaultHasItsCause : Prop :=
  ∀ (s t : State) (r : FaultRecord), s.run = .running → step s = .next t → t.run = .faulted r →
    match r.cause with
    | .bounds => s.mem.read 360 = 0 ∧ r.value = none ∧
        ((4096 < s.pc.toNat + 2 ∧ r.word = none ∧ r.addr = some (max s.pc.toNat 4096)) ∨
         (s.pc.toNat + 2 ≤ 4096 ∧ r.word = some (fetched s) ∧ r.addr = some (max s.i.toNat 4096) ∧
          ∃ i n, decodeWord (fetched s) = some i ∧ indexSpan i = some n ∧ n ≠ 0 ∧ 4096 < s.i.toNat + n))
    | .stackOverflow => s.mem.read 360 = 0 ∧ r.word = some (fetched s) ∧ r.addr = none ∧ r.value = none ∧
        (∃ nnn, decodeWord (fetched s) = some (.call nnn)) ∧ 15 ≤ s.sp.toNat
    | .stackUnderflow => s.mem.read 360 = 0 ∧ r.word = some (fetched s) ∧ r.addr = none ∧ r.value = none ∧
        decodeWord (fetched s) = some .ret ∧ s.sp = 0
    | .keyIndex => s.mem.read 360 = 0 ∧ r.word = some (fetched s) ∧ r.addr = none ∧
        ∃ x, (decodeWord (fetched s) = some (.skipKeyDown x) ∨ decodeWord (fetched s) = some (.skipKeyUp x)) ∧
          r.value = some (s.reg x) ∧ 16 ≤ (s.reg x).toNat
    | .waitTarget => s.mem.read 360 ≠ 0 ∧ r.word = none ∧ r.addr = none ∧ r.value = some (s.mem.read 361) ∧
        16 ≤ (s.mem.read 361).toNat ∧ ∃ k : Fin 16, s.input.keys[k] = true
    | .unknownOpcode => s.mem.read 360 = 0 ∧ r.word = some (fetched s) ∧ r.addr = none ∧ r.value = none ∧
        decodeWord (fetched s) = none ∧ s.policy = .fault

/-- 40_cycle.md R106 ("The block never stops by itself"): with a legal SP, every step answers a next state: the model
has no fault and no refusal of its own there. -/
def Obligations.StepAlwaysAnswers : Prop :=
  ∀ s : State, s.sp.toNat ≤ 15 → ∃ t, step s = .next t

/-! ### Whole-machine rules (10_state.md, 20_memory.md) -/

/-- R22: an instruction that completes writes only the registers its row of the access table names. -/
def Obligations.RegisterAccessTable : Prop :=
  ∀ (i : Instr) (s t : State), exec i s = .next t →
    (∀ r : Reg, ¬ mayWriteReg i r → t.reg r = s.reg r) ∧
    (¬ writesIndex i → t.i = s.i) ∧
    (¬ writesStack i → StackKept s t) ∧
    (¬ writesDelay i → t.dt = s.dt) ∧
    (¬ writesSound i → t.st = s.st) ∧
    (s.run = .running → t.run = .running → ¬ writesPc i → t.pc = s.pc)

/-- R60: an instruction stores to no address but those of its row of the access table. -/
def Obligations.MemoryAccessTable : Prop :=
  ∀ (i : Instr) (s t : State), exec i s = .next t → ∀ a, ¬ mayStore i s a → t.mem.read a = s.mem.read a

/-- R30, R96: UNK is never cleared; a step sets it only by an unknown opcode under NOP. That no step changes the policy is
the model's own clause: R8 and R33 make it a parameter, and the model holds it in State (DESIGN CHOICE, log entry 7). -/
def Obligations.UnkIsSticky : Prop :=
  ∀ s t : State, step s = .next t →
    (s.unk = true → t.unk = true) ∧ t.policy = s.policy ∧
    (s.unk = false → t.unk = true →
      s.run = .running ∧ s.mem.read 360 = 0 ∧ decodeWord (fetched s) = none ∧ s.policy = .nop)

/-- R58: what the key cells held before a tick is never observed: two states that differ in them only step alike. -/
def Obligations.OldKeyCellsAreNeverObserved : Prop :=
  ∀ (s : State) (m : Memory), s.run = .running → s.mem.wf → m.wf →
    (∀ a, (a < 337 ∨ 353 ≤ a) → m.read a = s.mem.read a) →
    step { s with mem := m } = step s

/-- R50, R53: a store within memory changes the byte stored to and no other and keeps the canonical form; a store past
memory does not access it; memories of the canonical form that read alike are equal data. -/
def Obligations.MemoryStoreLaw : Prop :=
  (∀ (m : Memory) (a : Nat) (v : Byte), (m.wf → (m.write a v).wf) ∧
    (a < 4096 → ∀ b, (m.write a v).read b = if b = a then v else m.read b) ∧
    (4096 ≤ a → m.write a v = m)) ∧
  ∀ m m' : Memory, m.wf → m'.wf → (∀ a < 4096, m.read a = m'.read a) → m = m'

/-! ### Construction and the invariant (70_reset_and_hazards.md) -/

/-- R230, R231: the constructed machine, for every ROM and every value of the open parameters; a ROM that is too long
gives none. (The stack's entries, which the spec leaves unspecified, are not stated.) -/
def Obligations.ConstructionResult : Prop :=
  ∀ (p : Config.Params) (rom : List Byte) (inputs : List TickInput),
    (3584 < rom.length → construct p rom inputs = .refused .loadError) ∧
    (rom.length ≤ 3584 → ∃ t, construct p rom inputs = .next t ∧
      (∀ a, (h : a < 80) → t.mem.read a = p.font[a]) ∧
      (∀ j, (h : j < rom.length) → t.mem.read (512 + j) = rom[j]) ∧
      (∀ a, 80 ≤ a → (a < 512 ∨ 512 + rom.length ≤ a) → t.mem.read a = 0) ∧
      t.pc.toNat = 512 ∧ t.sp = 0 ∧ t.dt = 0 ∧ t.st = 0 ∧ t.regs = p.initR ∧ t.i = p.initI ∧
      t.run = .running ∧ t.unk = false ∧ t.waitFsm = .running ∧ t.policy = p.policy)

/-- The reset state is the construction from the empty ROM with the reference parameters: R34's values, and, as the
model's own choice (log entries 1, 3 and 7), zero registers, the reference font and policy NOP. -/
def Obligations.ResetIsReferenceConstruction : Prop :=
  construct referenceParams [] [] = .next State.reset ∧
  State.reset.pc = 512 ∧ State.reset.sp = 0 ∧ State.reset.dt = 0 ∧ State.reset.st = 0 ∧
  State.reset.run = .running ∧ State.reset.unk = false ∧ State.reset.waitFsm = .running

/-- The invariant holds of every constructed machine. -/
def Obligations.ConstructedMachineMeetsInvariant : Prop :=
  ∀ (p : Config.Params) (rom : List Byte) (inputs : List TickInput) (t : State),
    construct p rom inputs = .next t → t.Inv

/-- The invariant holds at reset. -/
def Obligations.ResetMeetsInvariant : Prop := State.reset.Inv

/-- Every step keeps the invariant, from every state that meets it: memory stays canonical, SP stays 0..15 (R123), PC
stays at most 4350, so that PC arithmetic never wraps (R24), and a recorded fault is a legal one at PC (R204, R205). -/
def Obligations.StepKeepsInvariant : Prop :=
  ∀ s t : State, s.Inv → step s = .next t → t.Inv
end

