-- ==== Sys2Proof/Laws/Decode.lean ====
section
/-! SUPPORT. The digits of an encoded word, what a mask compares, and the fields read back from each format. -/

namespace Sys2Proof

/-! ### A format, bit by bit -/

theorem getLsbD_formatNnn (op : Nibble) (nnn : Addr12) (k : Nat) :
    (formatNnn op nnn).getLsbD k = if k < 12 then nnn.getLsbD k else op.getLsbD (k - 12) :=
  BitVec.getLsbD_append (x := op) (y := nnn)

theorem getLsbD_formatXkk (op : Nibble) (x : Reg) (kk : Byte) (k : Nat) :
    (formatXkk op x kk).getLsbD k =
      if k < 8 then kk.getLsbD k else if k < 12 then (regDigit x).getLsbD (k - 8) else op.getLsbD (k - 12) := by
  have h1 : (formatXkk op x kk).getLsbD k = if k < 12 then (regDigit x ++ kk).getLsbD k else op.getLsbD (k - 12) :=
    BitVec.getLsbD_append (x := op) (y := (regDigit x ++ kk : BitVec (4 + 8)))
  rw [h1, BitVec.getLsbD_append]
  split <;> split <;> first | rfl | omega

theorem getLsbD_formatXyn (op : Nibble) (x y : Reg) (n : Nibble) (k : Nat) :
    (formatXyn op x y n).getLsbD k =
      if k < 4 then n.getLsbD k
      else if k < 8 then (regDigit y).getLsbD (k - 4)
      else if k < 12 then (regDigit x).getLsbD (k - 8) else op.getLsbD (k - 12) := by
  have h1 : (formatXyn op x y n).getLsbD k =
      if k < 12 then (regDigit x ++ (regDigit y ++ n)).getLsbD k else op.getLsbD (k - 12) :=
    BitVec.getLsbD_append (x := op) (y := (regDigit x ++ (regDigit y ++ n) : BitVec (4 + (4 + 4))))
  rw [h1, BitVec.getLsbD_append, BitVec.getLsbD_append]
  repeat' split
  all_goals first
    | rfl
    | (exfalso; omega)

/-! ### The fields of each format (R72) -/

theorem regDigit_toFin (x : Reg) : (regDigit x).toFin = x := rfl

theorem regDigit_fieldX (w : Word) : regDigit (fieldX w) = w.extractLsb' 8 4 := rfl

theorem regDigit_fieldY (w : Word) : regDigit (fieldY w) = w.extractLsb' 4 4 := rfl

theorem fieldNnn_formatNnn (op : Nibble) (nnn : Addr12) : fieldNnn (formatNnn op nnn) = nnn := by
  apply BitVec.eq_of_getLsbD_eq
  intro k hk
  simp [fieldNnn, getLsbD_formatNnn, hk]

theorem fieldKk_formatXkk (op : Nibble) (x : Reg) (kk : Byte) : fieldKk (formatXkk op x kk) = kk := by
  apply BitVec.eq_of_getLsbD_eq
  intro k hk
  simp [fieldKk, getLsbD_formatXkk, hk]

theorem fieldX_formatXkk (op : Nibble) (x : Reg) (kk : Byte) : fieldX (formatXkk op x kk) = x := by
  have h : (formatXkk op x kk).extractLsb' 8 4 = regDigit x := by
    apply BitVec.eq_of_getLsbD_eq
    intro k hk
    simp [getLsbD_formatXkk, hk, show 8 + k < 12 by omega]
  rw [fieldX, h, regDigit_toFin]

theorem fieldX_formatXyn (op : Nibble) (x y : Reg) (n : Nibble) : fieldX (formatXyn op x y n) = x := by
  have h : (formatXyn op x y n).extractLsb' 8 4 = regDigit x := by
    apply BitVec.eq_of_getLsbD_eq
    intro k hk
    simp [getLsbD_formatXyn, hk, show ¬ 8 + k < 4 by omega, show 8 + k < 12 by omega]
  rw [fieldX, h, regDigit_toFin]

theorem fieldY_formatXyn (op : Nibble) (x y : Reg) (n : Nibble) : fieldY (formatXyn op x y n) = y := by
  have h : (formatXyn op x y n).extractLsb' 4 4 = regDigit y := by
    apply BitVec.eq_of_getLsbD_eq
    intro k hk
    simp [getLsbD_formatXyn, hk, show 4 + k < 8 by omega]
  rw [fieldY, h, regDigit_toFin]

theorem fieldN_formatXyn (op : Nibble) (x y : Reg) (n : Nibble) : fieldN (formatXyn op x y n) = n := by
  apply BitVec.eq_of_getLsbD_eq
  intro k hk
  simp [fieldN, getLsbD_formatXyn, hk]

/-! ### What the masks of R74 compare: the digits a pattern writes as constants -/

/-- The four digits of a word, the most significant first. -/
def topDigit (w : Word) : Nibble := w.extractLsb' 12 4

/-- The mask 0xF000 keeps the top digit. -/
theorem mask_top (w : Word) : w &&& 0xF000#16 = formatNnn (topDigit w) 0 := by
  apply BitVec.eq_of_getLsbD_eq
  intro k hk
  rw [getLsbD_formatNnn, topDigit]
  have : k = 0 ∨ k = 1 ∨ k = 2 ∨ k = 3 ∨ k = 4 ∨ k = 5 ∨ k = 6 ∨ k = 7 ∨ k = 8 ∨ k = 9 ∨ k = 10 ∨ k = 11 ∨
      k = 12 ∨ k = 13 ∨ k = 14 ∨ k = 15 := by omega
  rcases this with rfl | rfl | rfl | rfl | rfl | rfl | rfl | rfl | rfl | rfl | rfl | rfl | rfl | rfl | rfl | rfl <;>
    simp

/-- The mask 0xF00F keeps the top and the last digit. -/
theorem mask_topLast (w : Word) : w &&& 0xF00F#16 = formatXyn (topDigit w) 0 0 (fieldN w) := by
  apply BitVec.eq_of_getLsbD_eq
  intro k hk
  rw [getLsbD_formatXyn, topDigit, fieldN]
  have : k = 0 ∨ k = 1 ∨ k = 2 ∨ k = 3 ∨ k = 4 ∨ k = 5 ∨ k = 6 ∨ k = 7 ∨ k = 8 ∨ k = 9 ∨ k = 10 ∨ k = 11 ∨
      k = 12 ∨ k = 13 ∨ k = 14 ∨ k = 15 := by omega
  rcases this with rfl | rfl | rfl | rfl | rfl | rfl | rfl | rfl | rfl | rfl | rfl | rfl | rfl | rfl | rfl | rfl <;>
    simp [regDigit]

/-- The mask 0xF0FF keeps the top digit and the low byte. -/
theorem mask_topByte (w : Word) : w &&& 0xF0FF#16 = formatXkk (topDigit w) 0 (fieldKk w) := by
  apply BitVec.eq_of_getLsbD_eq
  intro k hk
  rw [getLsbD_formatXkk, topDigit, fieldKk]
  have : k = 0 ∨ k = 1 ∨ k = 2 ∨ k = 3 ∨ k = 4 ∨ k = 5 ∨ k = 6 ∨ k = 7 ∨ k = 8 ∨ k = 9 ∨ k = 10 ∨ k = 11 ∨
      k = 12 ∨ k = 13 ∨ k = 14 ∨ k = 15 := by omega
  rcases this with rfl | rfl | rfl | rfl | rfl | rfl | rfl | rfl | rfl | rfl | rfl | rfl | rfl | rfl | rfl | rfl <;>
    simp [regDigit]

theorem topDigit_formatNnn (op : Nibble) (nnn : Addr12) : topDigit (formatNnn op nnn) = op := by
  apply BitVec.eq_of_getLsbD_eq
  intro k hk
  simp [topDigit, getLsbD_formatNnn, hk]

theorem topDigit_formatXkk (op : Nibble) (x : Reg) (kk : Byte) : topDigit (formatXkk op x kk) = op := by
  apply BitVec.eq_of_getLsbD_eq
  intro k hk
  simp [topDigit, getLsbD_formatXkk, hk, show ¬ 12 + k < 8 by omega]

theorem topDigit_formatXyn (op : Nibble) (x y : Reg) (n : Nibble) : topDigit (formatXyn op x y n) = op := by
  apply BitVec.eq_of_getLsbD_eq
  intro k hk
  simp [topDigit, getLsbD_formatXyn, hk, show ¬ 12 + k < 4 by omega, show ¬ 12 + k < 8 by omega]

theorem mask_full (w : Word) : w &&& 0xFFFF#16 = w := by
  apply BitVec.eq_of_getLsbD_eq
  intro k hk
  have : k = 0 ∨ k = 1 ∨ k = 2 ∨ k = 3 ∨ k = 4 ∨ k = 5 ∨ k = 6 ∨ k = 7 ∨ k = 8 ∨ k = 9 ∨ k = 10 ∨ k = 11 ∨
      k = 12 ∨ k = 13 ∨ k = 14 ∨ k = 15 := by omega
  rcases this with rfl | rfl | rfl | rfl | rfl | rfl | rfl | rfl | rfl | rfl | rfl | rfl | rfl | rfl | rfl | rfl <;>
    simp

/-! ### The masks in arithmetic -/

theorem toNat_append {m n : Nat} (x : BitVec m) (y : BitVec n) : (x ++ y).toNat = x.toNat * 2 ^ n + y.toNat := by
  rw [BitVec.toNat_append, ← Nat.shiftLeft_add_eq_or_of_lt y.isLt, Nat.shiftLeft_eq]

theorem toNat_formatNnn (op : Nibble) (nnn : Addr12) : (formatNnn op nnn).toNat = op.toNat * 4096 + nnn.toNat :=
  toNat_append op nnn

theorem toNat_formatXkk (op : Nibble) (x : Reg) (kk : Byte) :
    (formatXkk op x kk).toNat = op.toNat * 4096 + x.val * 256 + kk.toNat := by
  have h1 : (formatXkk op x kk).toNat = op.toNat * 2 ^ 12 + (regDigit x ++ kk).toNat := toNat_append op _
  rw [h1, toNat_append, show (regDigit x).toNat = x.val from rfl]
  omega

theorem toNat_formatXyn (op : Nibble) (x y : Reg) (n : Nibble) :
    (formatXyn op x y n).toNat = op.toNat * 4096 + x.val * 256 + y.val * 16 + n.toNat := by
  have h1 : (formatXyn op x y n).toNat = op.toNat * 2 ^ 12 + (regDigit x ++ (regDigit y ++ n)).toNat := toNat_append op _
  rw [h1, toNat_append, toNat_append, show (regDigit x).toNat = x.val from rfl, show (regDigit y).toNat = y.val from rfl]
  omega

theorem toNat_topDigit (w : Word) : (topDigit w).toNat = w.toNat / 4096 := by
  rw [topDigit, BitVec.extractLsb'_toNat, Nat.shiftRight_eq_div_pow]
  omega

theorem toNat_fieldN (w : Word) : (fieldN w).toNat = w.toNat % 16 := by
  rw [fieldN, BitVec.extractLsb'_toNat, Nat.shiftRight_eq_div_pow]
  omega

theorem toNat_fieldKk (w : Word) : (fieldKk w).toNat = w.toNat % 256 := by
  rw [fieldKk, BitVec.extractLsb'_toNat, Nat.shiftRight_eq_div_pow]
  omega

/-- A row of mask 0xF000 compares the top digit. -/
theorem mask_top_iff (w p : Word) : w &&& 0xF000#16 = p ↔ w.toNat / 4096 * 4096 = p.toNat := by
  rw [mask_top, ← BitVec.toNat_inj, toNat_formatNnn, toNat_topDigit]
  simp

/-- A row of mask 0xF00F compares the top and the last digit. -/
theorem mask_topLast_iff (w p : Word) :
    w &&& 0xF00F#16 = p ↔ w.toNat / 4096 * 4096 + w.toNat % 16 = p.toNat := by
  rw [mask_topLast, ← BitVec.toNat_inj, toNat_formatXyn, toNat_topDigit, toNat_fieldN]
  simp

/-- A row of mask 0xF0FF compares the top digit and the low byte. -/
theorem mask_topByte_iff (w p : Word) :
    w &&& 0xF0FF#16 = p ↔ w.toNat / 4096 * 4096 + w.toNat % 256 = p.toNat := by
  rw [mask_topByte, ← BitVec.toNat_inj, toNat_formatXkk, toNat_topDigit, toNat_fieldKk]
  simp

/-! ### Rebuilding a word from its fields -/

theorem word_eq_formatNnn (w : Word) : formatNnn (topDigit w) (fieldNnn w) = w := by
  apply BitVec.eq_of_getLsbD_eq
  intro k hk
  rw [getLsbD_formatNnn, topDigit, fieldNnn]
  split
  · next h => simp [h]
  · next h => simp [show k - 12 < 4 by omega, show 12 + (k - 12) = k by omega]

theorem word_eq_formatXkk (w : Word) : formatXkk (topDigit w) (fieldX w) (fieldKk w) = w := by
  apply BitVec.eq_of_getLsbD_eq
  intro k hk
  rw [getLsbD_formatXkk, topDigit, fieldKk, regDigit_fieldX]
  split
  · next h => simp [h]
  · split
    · next h => simp [show k - 8 < 4 by omega, show 8 + (k - 8) = k by omega]
    · next h => simp [show k - 12 < 4 by omega, show 12 + (k - 12) = k by omega]

theorem word_eq_formatXyn (w : Word) : formatXyn (topDigit w) (fieldX w) (fieldY w) (fieldN w) = w := by
  apply BitVec.eq_of_getLsbD_eq
  intro k hk
  rw [getLsbD_formatXyn, topDigit, fieldN, regDigit_fieldX, regDigit_fieldY]
  split
  · next h => simp [h]
  · split
    · next h => simp [show k - 4 < 4 by omega, show 4 + (k - 4) = k by omega]
    · split
      · next h => simp [show k - 8 < 4 by omega, show 8 + (k - 8) = k by omega]
      · next h => simp [show k - 12 < 4 by omega, show 12 + (k - 12) = k by omega]

/-! ### The table -/

/-- Two rows whose patterns differ in a digit that both compare. -/
def OpcodeRow.apart (r q : OpcodeRow) : Bool :=
  r.mask &&& q.mask &&& r.pattern != r.mask &&& q.mask &&& q.pattern

/-- No word selects two rows that are apart (R75). -/
theorem OpcodeRow.apart_selects {r q : OpcodeRow} (h : r.apart q) {w : Word} (hr : r.selects w) : q.selects w = false := by
  rw [OpcodeRow.selects, beq_iff_eq] at hr
  rw [OpcodeRow.selects, beq_eq_false_iff_ne]
  intro hq
  rw [OpcodeRow.apart, bne_iff_ne] at h
  apply h
  rw [← hr, ← hq]
  apply BitVec.eq_of_getLsbD_eq
  intro k _
  simp only [BitVec.getLsbD_and]
  cases r.mask.getLsbD k <;> cases q.mask.getLsbD k <;> simp

/-- Any two rows of the table are apart (R75). -/
theorem opcodeTable_apart : opcodeTable.Pairwise (fun r q => r.apart q = true) := by
  decide +kernel

/-- The row that selects a word is the one the decoder takes (R74, R75). -/
theorem find_row {rows : List OpcodeRow} (hp : rows.Pairwise (fun r q => r.apart q = true)) {r : OpcodeRow}
    (hr : r ∈ rows) {w : Word} (hw : r.selects w = true) : rows.find? (·.selects w) = some r := by
  induction rows with
  | nil => cases hr
  | cons q rows ih =>
    have ⟨hq, hrows⟩ := List.pairwise_cons.1 hp
    rcases List.mem_cons.1 hr with rfl | hr
    · rw [List.find?_cons, hw]
    · have : q.selects w = false := by
        cases hc : q.selects w with
        | false => rfl
        | true => rw [OpcodeRow.apart_selects (hq r hr) hc] at hw; cases hw
      rw [List.find?_cons, this]
      exact ih hrows hr

/-- A word with a row's constant digits decodes to what the row builds (R74). -/
theorem decodeWord_of_row {r : OpcodeRow} (hr : r ∈ opcodeTable) {w : Word} (hw : w &&& r.mask = r.pattern) :
    decodeWord w = some (r.build w) := by
  rw [decodeWord, find_row opcodeTable_apart hr (by rw [OpcodeRow.selects, hw, beq_self_eq_true]), Option.map_some]

/-- A decoded instruction comes from a row that its word selects. -/
theorem row_of_decodeWord {w : Word} {i : Instr} (h : decodeWord w = some i) :
    ∃ r ∈ opcodeTable, r.selects w = true ∧ r.build w = i := by
  rw [decodeWord, Option.map_eq_some_iff] at h
  obtain ⟨r, hr, hb⟩ := h
  exact ⟨r, List.mem_of_find?_eq_some hr, by simpa using List.find?_some hr, hb⟩

end Sys2Proof
end

