-- ==== Sys2Proof/Laws/Memory.lean ====
section
/-! SUPPORT. What the memory operations do: a read after a write, and that every operation keeps the canonical
form. -/

namespace Sys2Proof.Machine.Memory

@[simp] theorem read_nil (a : Nat) : read [] a = unlisted a := rfl

theorem read_cons (b : Nat) (v : Byte) (m : Memory) (a : Nat) :
    read ((b, v) :: m) a = if a = b then v else m.read a := rfl

theorem read_list (m : Memory) (a : Nat) (v : Byte) (q : Nat) :
    (m.list a v).read q = if q = a then v else m.read q := by
  induction m with
  | nil => rfl
  | cons c m ih =>
    obtain ⟨b, u⟩ := c
    simp only [list]
    split
    · rfl
    · split
      · next h => subst h; simp only [read_cons]; split <;> rfl
      · next h =>
        simp only [read_cons, ih]
        split
        · next h' => rw [if_neg (by omega)]
        · rfl

theorem read_unlist (m : Memory) (a q : Nat) :
    (m.unlist a).read q = if q = a then unlisted a else m.read q := by
  induction m with
  | nil => simp [unlist]; intro h; rw [h]
  | cons c m ih =>
    obtain ⟨b, u⟩ := c
    simp only [unlist, List.filter_cons, bne_iff_ne, ne_eq] at ih ⊢
    by_cases hb : b = a
    · subst hb
      simp only [not_true_eq_false, if_false, ih, read_cons]
      split <;> rfl
    · simp only [hb, not_false_eq_true, if_true, read_cons, ih]
      split
      · next h => rw [if_neg (by omega)]
      · rfl

/-- The one law of a store: the byte stored to reads as stored, every other byte as before. -/
theorem read_write (m : Memory) {a : Nat} (ha : a < 4096) (v : Byte) (q : Nat) :
    (m.write a v).read q = if q = a then v else m.read q := by
  unfold write
  rw [if_neg (by simpa using ha)]
  split
  · next h => rw [read_unlist, h]
  · exact read_list m a v q

theorem write_out_of_range (m : Memory) {a : Nat} (ha : 4096 ≤ a) (v : Byte) : m.write a v = m := by
  unfold write
  rw [if_pos (by simpa using ha)]

/-- The law of a store of several bytes. -/
theorem read_writeBytes (vs : List Byte) (m : Memory) (a : Nat) (h : a + vs.length ≤ 4096) (q : Nat) :
    (m.writeBytes a vs).read q = if a ≤ q ∧ q < a + vs.length then vs.getD (q - a) 0 else m.read q := by
  induction vs generalizing m a with
  | nil => rw [if_neg (by simp only [List.length_nil]; omega)]; rfl
  | cons v vs ih =>
    simp only [List.length_cons] at h ⊢
    rw [writeBytes, ih _ _ (by omega), read_write m (by omega)]
    by_cases hq : q = a
    · subst hq
      rw [if_neg (by omega), if_pos rfl, if_pos (by omega)]
      simp
    · rw [if_neg hq]
      by_cases hin : a + 1 ≤ q ∧ q < a + 1 + vs.length
      · rw [if_pos hin, if_pos (by omega), show q - a = (q - (a + 1)) + 1 by omega, List.getD_cons_succ]
      · rw [if_neg hin, if_neg (by omega)]

theorem read_writeBytes_outside (vs : List Byte) (m : Memory) (a : Nat) (h : a + vs.length ≤ 4096) {q : Nat}
    (hq : q < a ∨ a + vs.length ≤ q) : (m.writeBytes a vs).read q = m.read q := by
  rw [read_writeBytes vs m a h, if_neg (by omega)]

/-- Storing one byte `n` times. -/
theorem read_writeBytes_replicate (m : Memory) (a n : Nat) (v : Byte) (h : a + n ≤ 4096) (q : Nat) :
    (m.writeBytes a (List.replicate n v)).read q = if a ≤ q ∧ q < a + n then v else m.read q := by
  rw [read_writeBytes _ m a (by rw [List.length_replicate]; exact h), List.length_replicate]
  split
  · rw [List.getD_eq_getElem?_getD, List.getElem?_replicate, if_pos (by omega), Option.getD_some]
  · rfl

/-! ### The canonical form -/

theorem wf_nil : wf [] := by simp [wf]

theorem wf_unlist {m : Memory} (h : m.wf) (a : Nat) : (m.unlist a).wf :=
  ⟨h.1.sublist List.filter_sublist, fun c hc => h.2 c (List.mem_filter.1 hc).1⟩

theorem mem_list {m : Memory} {a : Nat} {v : Byte} {c : Host.Cell} (h : c ∈ m.list a v) : c = (a, v) ∨ c ∈ m := by
  induction m with
  | nil => simpa [list] using h
  | cons d m ih =>
    obtain ⟨b, u⟩ := d
    simp only [list] at h
    split at h
    · simpa using h
    · split at h
      · rcases List.mem_cons.1 h with h | h
        · exact .inl h
        · exact .inr (List.mem_cons_of_mem _ h)
      · rcases List.mem_cons.1 h with h | h
        · exact .inr (h ▸ List.mem_cons_self)
        · rcases ih h with h | h
          · exact .inl h
          · exact .inr (List.mem_cons_of_mem _ h)

theorem pairwise_list {m : Memory} (h : m.Pairwise (fun p q => p.1 < q.1)) (a : Nat) (v : Byte) :
    (m.list a v).Pairwise (fun p q => p.1 < q.1) := by
  induction m with
  | nil => simp [list]
  | cons d m ih =>
    obtain ⟨b, u⟩ := d
    have ⟨hb, hm⟩ := List.pairwise_cons.1 h
    simp only [list]
    split
    · next hab =>
      refine List.pairwise_cons.2 ⟨fun c hc => ?_, h⟩
      rcases List.mem_cons.1 hc with rfl | hc
      · exact hab
      · exact Nat.lt_trans hab (hb c hc)
    · split
      · next hab => subst hab; exact List.pairwise_cons.2 ⟨hb, hm⟩
      · refine List.pairwise_cons.2 ⟨fun c hc => ?_, ih hm⟩
        rcases mem_list hc with rfl | hc
        · simp only; omega
        · exact hb c hc

theorem wf_write {m : Memory} (h : m.wf) (a : Nat) (v : Byte) : (m.write a v).wf := by
  unfold write
  split
  · exact h
  · next ha =>
    split
    · exact wf_unlist h a
    · next hv =>
      refine ⟨pairwise_list h.1 a v, fun c hc => ?_⟩
      rcases mem_list hc with rfl | hc
      · exact ⟨Nat.lt_of_not_le ha, hv⟩
      · exact h.2 c hc

theorem wf_writeBytes {m : Memory} (h : m.wf) (vs : List Byte) (a : Nat) : (m.writeBytes a vs).wf := by
  induction vs generalizing m a with
  | nil => exact h
  | cons v vs ih => exact ih (wf_write h a v) (a + 1)

/-! ### Equal memories are equal data -/

theorem read_of_lt_all {m : Memory} {a : Nat} (h : ∀ c ∈ m, a < c.1) : m.read a = unlisted a := by
  induction m with
  | nil => rfl
  | cons c m ih =>
    obtain ⟨b, u⟩ := c
    have hb := h (b, u) List.mem_cons_self
    rw [read_cons, if_neg (by simp only at hb; omega)]
    exact ih fun c hc => h c (List.mem_cons_of_mem _ hc)

theorem wf_tail {c : Host.Cell} {m : Memory} (h : wf (c :: m)) : wf m :=
  ⟨(List.pairwise_cons.1 h.1).2, fun d hd => h.2 d (List.mem_cons_of_mem _ hd)⟩

/-- Canonical memories that read alike are equal. -/
theorem ext_of_read {m m' : Memory} (h : m.wf) (h' : m'.wf) (hr : ∀ a, a < 4096 → m.read a = m'.read a) : m = m' := by
  induction m generalizing m' with
  | nil =>
    cases m' with
    | nil => rfl
    | cons d m' =>
      obtain ⟨b, u⟩ := d
      have hd := h'.2 (b, u) List.mem_cons_self
      have := hr b hd.1
      rw [read_cons, if_pos rfl] at this
      exact absurd this.symm hd.2
  | cons c m ih =>
    obtain ⟨a, v⟩ := c
    have hc := h.2 (a, v) List.mem_cons_self
    have hlt := (List.pairwise_cons.1 h.1).1
    cases m' with
    | nil =>
      have := hr a hc.1
      rw [read_cons, if_pos rfl] at this
      exact absurd this hc.2
    | cons d m' =>
      obtain ⟨b, u⟩ := d
      have hd := h'.2 (b, u) List.mem_cons_self
      have hlt' := (List.pairwise_cons.1 h'.1).1
      have ra := hr a hc.1
      have rb := hr b hd.1
      rw [read_cons, if_pos rfl, read_cons] at ra
      rw [read_cons, read_cons, if_pos rfl] at rb
      have hab : a = b := by
        rcases Nat.lt_trichotomy a b with hab | hab | hab
        · rw [if_neg (by omega), read_of_lt_all fun c hc' => Nat.lt_trans hab (hlt' c hc')] at ra
          exact absurd ra hc.2
        · exact hab
        · rw [if_neg (by omega), read_of_lt_all fun c hc' => Nat.lt_trans hab (hlt c hc')] at rb
          exact absurd rb.symm hd.2
      subst hab
      rw [if_pos rfl] at ra
      subst ra
      congr 1
      refine ih (wf_tail h) (wf_tail h') fun q hq => ?_
      by_cases hqa : q = a
      · subst hqa
        rw [read_of_lt_all hlt, read_of_lt_all hlt']
      · have := hr q hq
        rwa [read_cons, read_cons, if_neg hqa, if_neg hqa] at this

end Sys2Proof.Machine.Memory

namespace Sys2Proof.Machine

/-- What the bounds check answers: none iff no access or every access within memory; else the lowest address of the
span past the end. -/
theorem firstOutOfRange_eq_none {base n : Nat} : firstOutOfRange base n = none ↔ n = 0 ∨ base + n ≤ 4096 := by
  unfold firstOutOfRange
  split
  · next h => simpa using h
  · next h => simpa using h

theorem firstOutOfRange_eq_some {base n a : Nat} :
    firstOutOfRange base n = some a ↔ (n ≠ 0 ∧ 4096 < base + n ∧ a = max base 4096) := by
  unfold firstOutOfRange
  split
  · next h => simp only [reduceCtorEq, false_iff]; simp only [Config.memSize] at h; omega
  · next h => simp only [Option.some.injEq, Config.memSize] at h ⊢; omega

/-- The address is the lowest of the span that is ≥ 4096 (R201). -/
theorem firstOutOfRange_lowest {base n a : Nat} (h : firstOutOfRange base n = some a) :
    4096 ≤ a ∧ base ≤ a ∧ a < base + n ∧ ∀ b, base ≤ b → b < a → b < 4096 := by
  have ⟨_, _, h3⟩ := firstOutOfRange_eq_some.1 h
  refine ⟨by omega, by omega, by omega, fun b _ _ => by omega⟩

end Sys2Proof.Machine
end

