-- ==== Sys2Proof/Laws/Display.lean ====
section
/-! SUPPORT. What the row operations and a draw do to each byte and each pixel. -/

namespace Sys2Proof.Machine

/-- What a byte reads after `clear-screen` (R112). -/
theorem read_blank (m : Memory) (q : Nat) :
    (m.writeBytes 80 blankFramebuffer).read q = if 80 ≤ q ∧ q < 336 then 0 else m.read q :=
  Memory.read_writeBytes_replicate m 80 256 0 (by omega) q

theorem rowByte_length (v : RowBits) : ((List.range 8).map (rowByte v)).length = 8 := by simp

/-- A row value as the append of its bytes, with the widths added up. -/
theorem getLsbD_readRow_append (m : Memory) (r i : Nat) :
    (m.readRow r).getLsbD i =
      BitVec.getLsbD (w := 8 + (8 + (8 + (8 + (8 + (8 + (8 + 8)))))))
        (m.read (rowAddr r) ++ (m.read (rowAddr r + 1) ++ (m.read (rowAddr r + 2) ++ (m.read (rowAddr r + 3) ++
          (m.read (rowAddr r + 4) ++ (m.read (rowAddr r + 5) ++ (m.read (rowAddr r + 6) ++ m.read (rowAddr r + 7))))))))
        i := rfl

/-- A row value's k-th byte is the byte at the row's k-th address. -/
theorem rowByte_readRow (m : Memory) (r : Nat) {k : Nat} (hk : k < 8) :
    rowByte (m.readRow r) k = m.read (rowAddr r + k) := by
  apply BitVec.eq_of_getLsbD_eq
  intro j hj
  have key : (m.readRow r).getLsbD (56 - 8 * k + j) = (m.read (rowAddr r + k)).getLsbD j := by
    have h8 : k = 0 ∨ k = 1 ∨ k = 2 ∨ k = 3 ∨ k = 4 ∨ k = 5 ∨ k = 6 ∨ k = 7 := by omega
    rw [getLsbD_readRow_append]
    iterate 7 rw [BitVec.getLsbD_append]
    rcases h8 with rfl | rfl | rfl | rfl | rfl | rfl | rfl | rfl <;> repeat' split
    all_goals first
      | (exfalso; omega)
      | (congr 1; omega)
  simp [rowByte, hj, key]

/-- Writing a row value stores its eight bytes and nothing else (R111). -/
theorem read_writeRow (m : Memory) {r : Nat} (hr : r < 32) (v : RowBits) (q : Nat) :
    (m.writeRow r v).read q =
      if rowAddr r ≤ q ∧ q < rowAddr r + 8 then rowByte v (q - rowAddr r) else m.read q := by
  have hlen : rowAddr r + ((List.range 8).map (rowByte v)).length ≤ 4096 := by
    rw [rowByte_length]; simp only [rowAddr, Config.fbBase]; omega
  rw [Memory.writeRow, Memory.read_writeBytes _ _ _ hlen, rowByte_length]
  split
  · next h => simp [List.getD_eq_getElem?_getD, List.getElem?_map, List.getElem?_range (show q - rowAddr r < 8 by omega)]
  · rfl

theorem spriteRow_lt (y : Byte) (i : Nat) : spriteRow y i < 32 := Nat.mod_lt _ (by simp)

theorem spriteColumn_lt (x : Byte) : spriteColumn x < 64 := Nat.mod_lt _ (by simp)

/-- One row of a draw, byte by byte (R113). -/
theorem read_drawRow (m : Memory) {row : Nat} (hr : row < 32) (xo : Nat) (sprite : Byte) (q : Nat) :
    (drawRow m row xo sprite).1.read q =
      if rowAddr row ≤ q ∧ q < rowAddr row + 8 then m.read q ^^^ rowByte (spriteLane sprite xo) (q - rowAddr row)
      else m.read q := by
  simp only [drawRow, read_writeRow m hr]
  split
  · next h =>
    have hk : q - rowAddr row < 8 := by omega
    have : rowByte (m.readRow row ^^^ spriteLane sprite xo) (q - rowAddr row) =
        rowByte (m.readRow row) (q - rowAddr row) ^^^ rowByte (spriteLane sprite xo) (q - rowAddr row) := by
      apply BitVec.eq_of_getLsbD_eq
      intro j hj
      simp [rowByte, hj]
    rw [this, rowByte_readRow m row hk, show rowAddr row + (q - rowAddr row) = q by omega]
  · rfl

/-- Old and not new is old and lane: a row collides iff the lane meets a lit pixel (R114). -/
theorem rowCollides_xor (old lane : RowBits) : rowCollides old (old ^^^ lane) = (old &&& lane != 0) := by
  have : old &&& ~~~(old ^^^ lane) = old &&& lane := by
    apply BitVec.eq_of_getLsbD_eq
    intro j hj
    simp only [BitVec.getLsbD_and, BitVec.getLsbD_not, BitVec.getLsbD_xor, hj, decide_true, Bool.true_and]
    cases old.getLsbD j <;> cases lane.getLsbD j <;> rfl
  rw [rowCollides, this]

theorem drawRow_collides (m : Memory) (row xo : Nat) (sprite : Byte) :
    (drawRow m row xo sprite).2 = (m.readRow row &&& spriteLane sprite xo != 0) :=
  rowCollides_xor _ _

theorem wf_drawRow {m : Memory} (h : m.wf) (row xo : Nat) (sprite : Byte) : (drawRow m row xo sprite).1.wf :=
  Memory.wf_writeBytes h _ _

theorem wf_drawRows {m : Memory} (h : m.wf) (base : Nat) (x y : Byte) (n : Nat) : (drawRows base x y n m).1.wf := by
  induction n with
  | zero => exact h
  | succ n ih => exact wf_drawRow ih _ _ _

/-- A draw writes within the framebuffer only (R116). -/
theorem read_drawRows_outside (m : Memory) (base : Nat) (x y : Byte) (n : Nat) {q : Nat} (hq : q < 80 ∨ 336 ≤ q) :
    (drawRows base x y n m).1.read q = m.read q := by
  induction n with
  | zero => rfl
  | succ n ih =>
    have hr := spriteRow_lt y n
    have hout : ¬(rowAddr (spriteRow y n) ≤ q ∧ q < rowAddr (spriteRow y n) + 8) := by
      simp only [rowAddr, Config.fbBase]; omega
    simp only [drawRows]
    rw [read_drawRow _ hr, if_neg hout, ih]

/-- Bit j of a sprite's lane, from the left: sprite bit 7 − (j − xo) at columns xo..xo+7, clipped at 63 (R115). -/
theorem getLsbD_spriteLane (sprite : Byte) (xo : Nat) {px : Nat} (hpx : px < 64) :
    (spriteLane sprite xo).getLsbD (63 - px) =
      (decide (xo ≤ px ∧ px < xo + 8) && sprite.getLsbD (7 - (px - xo))) := by
  unfold spriteLane
  rw [BitVec.getLsbD_ushiftRight, BitVec.getLsbD_shiftLeft, BitVec.getLsbD_setWidth]
  by_cases h : xo ≤ px ∧ px < xo + 8
  · rw [show xo + (63 - px) - 56 = 7 - (px - xo) by omega, decide_eq_true h]
    have h1 : decide (xo + (63 - px) < 64) = true := by simp; omega
    have h2 : decide (xo + (63 - px) < 56) = false := by simp; omega
    have h3 : decide (7 - (px - xo) < 64) = true := by simp; omega
    rw [h1, h2, h3]
    simp
  · rw [decide_eq_false h]
    by_cases hx : px < xo
    · have h1 : decide (xo + (63 - px) < 64) = false := by simp; omega
      rw [h1]; simp
    · have h2 : decide (xo + (63 - px) < 56) = true := by simp; omega
      rw [h2]; simp

/-- Pixel px of a row is bit 63 − px of its value (R111). -/
theorem getLsbD_readRow (m : Memory) (r : Nat) {px : Nat} (hpx : px < 64) :
    (m.readRow r).getLsbD (63 - px) = (m.read (rowAddr r + px / 8)).getLsbD (7 - px % 8) := by
  rw [← rowByte_readRow m r (show px / 8 < 8 by omega), rowByte, BitVec.getLsbD_extractLsb',
    show 56 - 8 * (px / 8) + (7 - px % 8) = 63 - px by omega]
  have : decide (7 - px % 8 < 8) = true := by simp; omega
  rw [this]; simp

end Sys2Proof.Machine
end

