-- ==== Sys2Proof/Laws/State.lean ====
section
/-! SUPPORT. One lemma per field per update of the state, true by definition, so that no later proof unfolds a record
update. -/

namespace Sys2Proof.Machine.State

/-! ### `setReg` -/

@[simp] theorem setReg_mem (s : State) (r : Reg) (v : Byte) : (s.setReg r v).mem = s.mem := rfl
@[simp] theorem setReg_regs (s : State) (r : Reg) (v : Byte) : (s.setReg r v).regs = s.regs.set r v := rfl
@[simp] theorem setReg_i (s : State) (r : Reg) (v : Byte) : (s.setReg r v).i = s.i := rfl
@[simp] theorem setReg_pc (s : State) (r : Reg) (v : Byte) : (s.setReg r v).pc = s.pc := rfl
@[simp] theorem setReg_sp (s : State) (r : Reg) (v : Byte) : (s.setReg r v).sp = s.sp := rfl
@[simp] theorem setReg_stack (s : State) (r : Reg) (v : Byte) : (s.setReg r v).stack = s.stack := rfl
@[simp] theorem setReg_dt (s : State) (r : Reg) (v : Byte) : (s.setReg r v).dt = s.dt := rfl
@[simp] theorem setReg_st (s : State) (r : Reg) (v : Byte) : (s.setReg r v).st = s.st := rfl
@[simp] theorem setReg_run (s : State) (r : Reg) (v : Byte) : (s.setReg r v).run = s.run := rfl
@[simp] theorem setReg_unk (s : State) (r : Reg) (v : Byte) : (s.setReg r v).unk = s.unk := rfl
@[simp] theorem setReg_policy (s : State) (r : Reg) (v : Byte) : (s.setReg r v).policy = s.policy := rfl
@[simp] theorem setReg_inputs (s : State) (r : Reg) (v : Byte) : (s.setReg r v).inputs = s.inputs := rfl
@[simp] theorem setReg_freeCount (s : State) (r : Reg) (v : Byte) : (s.setReg r v).freeCount = s.freeCount := rfl
@[simp] theorem setReg_input (s : State) (r : Reg) (v : Byte) : (s.setReg r v).input = s.input := rfl

/-! ### `setFlag` -/

@[simp] theorem setFlag_mem (s : State) (v : Byte) : (s.setFlag v).mem = s.mem := rfl
@[simp] theorem setFlag_regs (s : State) (v : Byte) : (s.setFlag v).regs = s.regs.set flagReg v := rfl
@[simp] theorem setFlag_i (s : State) (v : Byte) : (s.setFlag v).i = s.i := rfl
@[simp] theorem setFlag_pc (s : State) (v : Byte) : (s.setFlag v).pc = s.pc := rfl
@[simp] theorem setFlag_sp (s : State) (v : Byte) : (s.setFlag v).sp = s.sp := rfl
@[simp] theorem setFlag_stack (s : State) (v : Byte) : (s.setFlag v).stack = s.stack := rfl
@[simp] theorem setFlag_dt (s : State) (v : Byte) : (s.setFlag v).dt = s.dt := rfl
@[simp] theorem setFlag_st (s : State) (v : Byte) : (s.setFlag v).st = s.st := rfl
@[simp] theorem setFlag_run (s : State) (v : Byte) : (s.setFlag v).run = s.run := rfl
@[simp] theorem setFlag_unk (s : State) (v : Byte) : (s.setFlag v).unk = s.unk := rfl
@[simp] theorem setFlag_policy (s : State) (v : Byte) : (s.setFlag v).policy = s.policy := rfl
@[simp] theorem setFlag_inputs (s : State) (v : Byte) : (s.setFlag v).inputs = s.inputs := rfl
@[simp] theorem setFlag_freeCount (s : State) (v : Byte) : (s.setFlag v).freeCount = s.freeCount := rfl
@[simp] theorem setFlag_input (s : State) (v : Byte) : (s.setFlag v).input = s.input := rfl

/-! ### `setI` -/

@[simp] theorem setI_mem (s : State) (v : Word) : (s.setI v).mem = s.mem := rfl
@[simp] theorem setI_regs (s : State) (v : Word) : (s.setI v).regs = s.regs := rfl
@[simp] theorem setI_i (s : State) (v : Word) : (s.setI v).i = v := rfl
@[simp] theorem setI_pc (s : State) (v : Word) : (s.setI v).pc = s.pc := rfl
@[simp] theorem setI_sp (s : State) (v : Word) : (s.setI v).sp = s.sp := rfl
@[simp] theorem setI_stack (s : State) (v : Word) : (s.setI v).stack = s.stack := rfl
@[simp] theorem setI_dt (s : State) (v : Word) : (s.setI v).dt = s.dt := rfl
@[simp] theorem setI_st (s : State) (v : Word) : (s.setI v).st = s.st := rfl
@[simp] theorem setI_run (s : State) (v : Word) : (s.setI v).run = s.run := rfl
@[simp] theorem setI_unk (s : State) (v : Word) : (s.setI v).unk = s.unk := rfl
@[simp] theorem setI_policy (s : State) (v : Word) : (s.setI v).policy = s.policy := rfl
@[simp] theorem setI_inputs (s : State) (v : Word) : (s.setI v).inputs = s.inputs := rfl
@[simp] theorem setI_freeCount (s : State) (v : Word) : (s.setI v).freeCount = s.freeCount := rfl
@[simp] theorem setI_reg (s : State) (v : Word) (q : Reg) : (s.setI v).reg q = s.reg q := rfl
@[simp] theorem setI_input (s : State) (v : Word) : (s.setI v).input = s.input := rfl

/-! ### `setPc` -/

@[simp] theorem setPc_mem (s : State) (v : Word) : (s.setPc v).mem = s.mem := rfl
@[simp] theorem setPc_regs (s : State) (v : Word) : (s.setPc v).regs = s.regs := rfl
@[simp] theorem setPc_i (s : State) (v : Word) : (s.setPc v).i = s.i := rfl
@[simp] theorem setPc_pc (s : State) (v : Word) : (s.setPc v).pc = v := rfl
@[simp] theorem setPc_sp (s : State) (v : Word) : (s.setPc v).sp = s.sp := rfl
@[simp] theorem setPc_stack (s : State) (v : Word) : (s.setPc v).stack = s.stack := rfl
@[simp] theorem setPc_dt (s : State) (v : Word) : (s.setPc v).dt = s.dt := rfl
@[simp] theorem setPc_st (s : State) (v : Word) : (s.setPc v).st = s.st := rfl
@[simp] theorem setPc_run (s : State) (v : Word) : (s.setPc v).run = s.run := rfl
@[simp] theorem setPc_unk (s : State) (v : Word) : (s.setPc v).unk = s.unk := rfl
@[simp] theorem setPc_policy (s : State) (v : Word) : (s.setPc v).policy = s.policy := rfl
@[simp] theorem setPc_inputs (s : State) (v : Word) : (s.setPc v).inputs = s.inputs := rfl
@[simp] theorem setPc_freeCount (s : State) (v : Word) : (s.setPc v).freeCount = s.freeCount := rfl
@[simp] theorem setPc_reg (s : State) (v : Word) (q : Reg) : (s.setPc v).reg q = s.reg q := rfl
@[simp] theorem setPc_input (s : State) (v : Word) : (s.setPc v).input = s.input := rfl

/-! ### `setDt` -/

@[simp] theorem setDt_mem (s : State) (v : Byte) : (s.setDt v).mem = s.mem := rfl
@[simp] theorem setDt_regs (s : State) (v : Byte) : (s.setDt v).regs = s.regs := rfl
@[simp] theorem setDt_i (s : State) (v : Byte) : (s.setDt v).i = s.i := rfl
@[simp] theorem setDt_pc (s : State) (v : Byte) : (s.setDt v).pc = s.pc := rfl
@[simp] theorem setDt_sp (s : State) (v : Byte) : (s.setDt v).sp = s.sp := rfl
@[simp] theorem setDt_stack (s : State) (v : Byte) : (s.setDt v).stack = s.stack := rfl
@[simp] theorem setDt_dt (s : State) (v : Byte) : (s.setDt v).dt = v := rfl
@[simp] theorem setDt_st (s : State) (v : Byte) : (s.setDt v).st = s.st := rfl
@[simp] theorem setDt_run (s : State) (v : Byte) : (s.setDt v).run = s.run := rfl
@[simp] theorem setDt_unk (s : State) (v : Byte) : (s.setDt v).unk = s.unk := rfl
@[simp] theorem setDt_policy (s : State) (v : Byte) : (s.setDt v).policy = s.policy := rfl
@[simp] theorem setDt_inputs (s : State) (v : Byte) : (s.setDt v).inputs = s.inputs := rfl
@[simp] theorem setDt_freeCount (s : State) (v : Byte) : (s.setDt v).freeCount = s.freeCount := rfl
@[simp] theorem setDt_reg (s : State) (v : Byte) (q : Reg) : (s.setDt v).reg q = s.reg q := rfl
@[simp] theorem setDt_input (s : State) (v : Byte) : (s.setDt v).input = s.input := rfl

/-! ### `setSt` -/

@[simp] theorem setSt_mem (s : State) (v : Byte) : (s.setSt v).mem = s.mem := rfl
@[simp] theorem setSt_regs (s : State) (v : Byte) : (s.setSt v).regs = s.regs := rfl
@[simp] theorem setSt_i (s : State) (v : Byte) : (s.setSt v).i = s.i := rfl
@[simp] theorem setSt_pc (s : State) (v : Byte) : (s.setSt v).pc = s.pc := rfl
@[simp] theorem setSt_sp (s : State) (v : Byte) : (s.setSt v).sp = s.sp := rfl
@[simp] theorem setSt_stack (s : State) (v : Byte) : (s.setSt v).stack = s.stack := rfl
@[simp] theorem setSt_dt (s : State) (v : Byte) : (s.setSt v).dt = s.dt := rfl
@[simp] theorem setSt_st (s : State) (v : Byte) : (s.setSt v).st = v := rfl
@[simp] theorem setSt_run (s : State) (v : Byte) : (s.setSt v).run = s.run := rfl
@[simp] theorem setSt_unk (s : State) (v : Byte) : (s.setSt v).unk = s.unk := rfl
@[simp] theorem setSt_policy (s : State) (v : Byte) : (s.setSt v).policy = s.policy := rfl
@[simp] theorem setSt_inputs (s : State) (v : Byte) : (s.setSt v).inputs = s.inputs := rfl
@[simp] theorem setSt_freeCount (s : State) (v : Byte) : (s.setSt v).freeCount = s.freeCount := rfl
@[simp] theorem setSt_reg (s : State) (v : Byte) (q : Reg) : (s.setSt v).reg q = s.reg q := rfl
@[simp] theorem setSt_input (s : State) (v : Byte) : (s.setSt v).input = s.input := rfl

/-! ### `setUnk` -/

@[simp] theorem setUnk_mem (s : State) : (s.setUnk).mem = s.mem := rfl
@[simp] theorem setUnk_regs (s : State) : (s.setUnk).regs = s.regs := rfl
@[simp] theorem setUnk_i (s : State) : (s.setUnk).i = s.i := rfl
@[simp] theorem setUnk_pc (s : State) : (s.setUnk).pc = s.pc := rfl
@[simp] theorem setUnk_sp (s : State) : (s.setUnk).sp = s.sp := rfl
@[simp] theorem setUnk_stack (s : State) : (s.setUnk).stack = s.stack := rfl
@[simp] theorem setUnk_dt (s : State) : (s.setUnk).dt = s.dt := rfl
@[simp] theorem setUnk_st (s : State) : (s.setUnk).st = s.st := rfl
@[simp] theorem setUnk_run (s : State) : (s.setUnk).run = s.run := rfl
@[simp] theorem setUnk_unk (s : State) : (s.setUnk).unk = true := rfl
@[simp] theorem setUnk_policy (s : State) : (s.setUnk).policy = s.policy := rfl
@[simp] theorem setUnk_inputs (s : State) : (s.setUnk).inputs = s.inputs := rfl
@[simp] theorem setUnk_freeCount (s : State) : (s.setUnk).freeCount = s.freeCount := rfl
@[simp] theorem setUnk_reg (s : State) (q : Reg) : (s.setUnk).reg q = s.reg q := rfl
@[simp] theorem setUnk_input (s : State) : (s.setUnk).input = s.input := rfl

/-! ### `setMem` -/

@[simp] theorem setMem_mem (s : State) (m : Memory) : (s.setMem m).mem = m := rfl
@[simp] theorem setMem_regs (s : State) (m : Memory) : (s.setMem m).regs = s.regs := rfl
@[simp] theorem setMem_i (s : State) (m : Memory) : (s.setMem m).i = s.i := rfl
@[simp] theorem setMem_pc (s : State) (m : Memory) : (s.setMem m).pc = s.pc := rfl
@[simp] theorem setMem_sp (s : State) (m : Memory) : (s.setMem m).sp = s.sp := rfl
@[simp] theorem setMem_stack (s : State) (m : Memory) : (s.setMem m).stack = s.stack := rfl
@[simp] theorem setMem_dt (s : State) (m : Memory) : (s.setMem m).dt = s.dt := rfl
@[simp] theorem setMem_st (s : State) (m : Memory) : (s.setMem m).st = s.st := rfl
@[simp] theorem setMem_run (s : State) (m : Memory) : (s.setMem m).run = s.run := rfl
@[simp] theorem setMem_unk (s : State) (m : Memory) : (s.setMem m).unk = s.unk := rfl
@[simp] theorem setMem_policy (s : State) (m : Memory) : (s.setMem m).policy = s.policy := rfl
@[simp] theorem setMem_inputs (s : State) (m : Memory) : (s.setMem m).inputs = s.inputs := rfl
@[simp] theorem setMem_freeCount (s : State) (m : Memory) : (s.setMem m).freeCount = s.freeCount := rfl
@[simp] theorem setMem_reg (s : State) (m : Memory) (q : Reg) : (s.setMem m).reg q = s.reg q := rfl
@[simp] theorem setMem_input (s : State) (m : Memory) : (s.setMem m).input = s.input := rfl

/-! ### `storeBytes` -/

@[simp] theorem storeBytes_mem (s : State) (a : Nat) (vs : List Byte) : (s.storeBytes a vs).mem = s.mem.writeBytes a vs := rfl
@[simp] theorem storeBytes_regs (s : State) (a : Nat) (vs : List Byte) : (s.storeBytes a vs).regs = s.regs := rfl
@[simp] theorem storeBytes_i (s : State) (a : Nat) (vs : List Byte) : (s.storeBytes a vs).i = s.i := rfl
@[simp] theorem storeBytes_pc (s : State) (a : Nat) (vs : List Byte) : (s.storeBytes a vs).pc = s.pc := rfl
@[simp] theorem storeBytes_sp (s : State) (a : Nat) (vs : List Byte) : (s.storeBytes a vs).sp = s.sp := rfl
@[simp] theorem storeBytes_stack (s : State) (a : Nat) (vs : List Byte) : (s.storeBytes a vs).stack = s.stack := rfl
@[simp] theorem storeBytes_dt (s : State) (a : Nat) (vs : List Byte) : (s.storeBytes a vs).dt = s.dt := rfl
@[simp] theorem storeBytes_st (s : State) (a : Nat) (vs : List Byte) : (s.storeBytes a vs).st = s.st := rfl
@[simp] theorem storeBytes_run (s : State) (a : Nat) (vs : List Byte) : (s.storeBytes a vs).run = s.run := rfl
@[simp] theorem storeBytes_unk (s : State) (a : Nat) (vs : List Byte) : (s.storeBytes a vs).unk = s.unk := rfl
@[simp] theorem storeBytes_policy (s : State) (a : Nat) (vs : List Byte) : (s.storeBytes a vs).policy = s.policy := rfl
@[simp] theorem storeBytes_inputs (s : State) (a : Nat) (vs : List Byte) : (s.storeBytes a vs).inputs = s.inputs := rfl
@[simp] theorem storeBytes_freeCount (s : State) (a : Nat) (vs : List Byte) : (s.storeBytes a vs).freeCount = s.freeCount := rfl
@[simp] theorem storeBytes_reg (s : State) (a : Nat) (vs : List Byte) (q : Reg) : (s.storeBytes a vs).reg q = s.reg q := rfl
@[simp] theorem storeBytes_input (s : State) (a : Nat) (vs : List Byte) : (s.storeBytes a vs).input = s.input := rfl

/-! ### `advancePc` -/

@[simp] theorem advancePc_mem (s : State) : (s.advancePc).mem = s.mem := rfl
@[simp] theorem advancePc_regs (s : State) : (s.advancePc).regs = s.regs := rfl
@[simp] theorem advancePc_i (s : State) : (s.advancePc).i = s.i := rfl
@[simp] theorem advancePc_pc (s : State) : (s.advancePc).pc = s.pc + 2 := rfl
@[simp] theorem advancePc_sp (s : State) : (s.advancePc).sp = s.sp := rfl
@[simp] theorem advancePc_stack (s : State) : (s.advancePc).stack = s.stack := rfl
@[simp] theorem advancePc_dt (s : State) : (s.advancePc).dt = s.dt := rfl
@[simp] theorem advancePc_st (s : State) : (s.advancePc).st = s.st := rfl
@[simp] theorem advancePc_run (s : State) : (s.advancePc).run = s.run := rfl
@[simp] theorem advancePc_unk (s : State) : (s.advancePc).unk = s.unk := rfl
@[simp] theorem advancePc_policy (s : State) : (s.advancePc).policy = s.policy := rfl
@[simp] theorem advancePc_inputs (s : State) : (s.advancePc).inputs = s.inputs := rfl
@[simp] theorem advancePc_freeCount (s : State) : (s.advancePc).freeCount = s.freeCount := rfl
@[simp] theorem advancePc_reg (s : State) (q : Reg) : (s.advancePc).reg q = s.reg q := rfl
@[simp] theorem advancePc_input (s : State) : (s.advancePc).input = s.input := rfl

/-! ### `push` -/

@[simp] theorem push_mem (s : State) (v : Word) : (s.push v).mem = s.mem := rfl
@[simp] theorem push_regs (s : State) (v : Word) : (s.push v).regs = s.regs := rfl
@[simp] theorem push_i (s : State) (v : Word) : (s.push v).i = s.i := rfl
@[simp] theorem push_pc (s : State) (v : Word) : (s.push v).pc = s.pc := rfl
@[simp] theorem push_sp (s : State) (v : Word) : (s.push v).sp = s.sp + 1 := rfl
@[simp] theorem push_stack (s : State) (v : Word) : (s.push v).stack = s.stack.setIfInBounds (s.sp.toNat + 1) v := rfl
@[simp] theorem push_dt (s : State) (v : Word) : (s.push v).dt = s.dt := rfl
@[simp] theorem push_st (s : State) (v : Word) : (s.push v).st = s.st := rfl
@[simp] theorem push_run (s : State) (v : Word) : (s.push v).run = s.run := rfl
@[simp] theorem push_unk (s : State) (v : Word) : (s.push v).unk = s.unk := rfl
@[simp] theorem push_policy (s : State) (v : Word) : (s.push v).policy = s.policy := rfl
@[simp] theorem push_inputs (s : State) (v : Word) : (s.push v).inputs = s.inputs := rfl
@[simp] theorem push_freeCount (s : State) (v : Word) : (s.push v).freeCount = s.freeCount := rfl
@[simp] theorem push_reg (s : State) (v : Word) (q : Reg) : (s.push v).reg q = s.reg q := rfl
@[simp] theorem push_input (s : State) (v : Word) : (s.push v).input = s.input := rfl

/-! ### `loadRegsFrom` -/

@[simp] theorem loadRegsFrom_mem (s : State) (b : Nat) (x : Reg) : (s.loadRegsFrom b x).mem = s.mem := rfl
@[simp] theorem loadRegsFrom_i (s : State) (b : Nat) (x : Reg) : (s.loadRegsFrom b x).i = s.i := rfl
@[simp] theorem loadRegsFrom_pc (s : State) (b : Nat) (x : Reg) : (s.loadRegsFrom b x).pc = s.pc := rfl
@[simp] theorem loadRegsFrom_sp (s : State) (b : Nat) (x : Reg) : (s.loadRegsFrom b x).sp = s.sp := rfl
@[simp] theorem loadRegsFrom_stack (s : State) (b : Nat) (x : Reg) : (s.loadRegsFrom b x).stack = s.stack := rfl
@[simp] theorem loadRegsFrom_dt (s : State) (b : Nat) (x : Reg) : (s.loadRegsFrom b x).dt = s.dt := rfl
@[simp] theorem loadRegsFrom_st (s : State) (b : Nat) (x : Reg) : (s.loadRegsFrom b x).st = s.st := rfl
@[simp] theorem loadRegsFrom_run (s : State) (b : Nat) (x : Reg) : (s.loadRegsFrom b x).run = s.run := rfl
@[simp] theorem loadRegsFrom_unk (s : State) (b : Nat) (x : Reg) : (s.loadRegsFrom b x).unk = s.unk := rfl
@[simp] theorem loadRegsFrom_policy (s : State) (b : Nat) (x : Reg) : (s.loadRegsFrom b x).policy = s.policy := rfl
@[simp] theorem loadRegsFrom_inputs (s : State) (b : Nat) (x : Reg) : (s.loadRegsFrom b x).inputs = s.inputs := rfl
@[simp] theorem loadRegsFrom_freeCount (s : State) (b : Nat) (x : Reg) : (s.loadRegsFrom b x).freeCount = s.freeCount := rfl
@[simp] theorem loadRegsFrom_input (s : State) (b : Nat) (x : Reg) : (s.loadRegsFrom b x).input = s.input := rfl

/-! ### `timerStep` -/

@[simp] theorem timerStep_mem (s : State) : (s.timerStep).mem = s.mem := rfl
@[simp] theorem timerStep_regs (s : State) : (s.timerStep).regs = s.regs := rfl
@[simp] theorem timerStep_i (s : State) : (s.timerStep).i = s.i := rfl
@[simp] theorem timerStep_pc (s : State) : (s.timerStep).pc = s.pc := rfl
@[simp] theorem timerStep_sp (s : State) : (s.timerStep).sp = s.sp := rfl
@[simp] theorem timerStep_stack (s : State) : (s.timerStep).stack = s.stack := rfl
@[simp] theorem timerStep_dt (s : State) : (s.timerStep).dt = countDown s.dt := rfl
@[simp] theorem timerStep_st (s : State) : (s.timerStep).st = countDown s.st := rfl
@[simp] theorem timerStep_run (s : State) : (s.timerStep).run = s.run := rfl
@[simp] theorem timerStep_unk (s : State) : (s.timerStep).unk = s.unk := rfl
@[simp] theorem timerStep_policy (s : State) : (s.timerStep).policy = s.policy := rfl
@[simp] theorem timerStep_inputs (s : State) : (s.timerStep).inputs = s.inputs := rfl
@[simp] theorem timerStep_freeCount (s : State) : (s.timerStep).freeCount = s.freeCount := rfl
@[simp] theorem timerStep_reg (s : State) (q : Reg) : (s.timerStep).reg q = s.reg q := rfl
@[simp] theorem timerStep_input (s : State) : (s.timerStep).input = s.input := rfl

/-! ### `inputRefresh` -/

@[simp] theorem inputRefresh_mem (s : State) : (s.inputRefresh).mem = s.mem.writeBytes 337 (s.input.keys.toList.map keyByte) := rfl
@[simp] theorem inputRefresh_regs (s : State) : (s.inputRefresh).regs = s.regs := rfl
@[simp] theorem inputRefresh_i (s : State) : (s.inputRefresh).i = s.i := rfl
@[simp] theorem inputRefresh_pc (s : State) : (s.inputRefresh).pc = s.pc := rfl
@[simp] theorem inputRefresh_sp (s : State) : (s.inputRefresh).sp = s.sp := rfl
@[simp] theorem inputRefresh_stack (s : State) : (s.inputRefresh).stack = s.stack := rfl
@[simp] theorem inputRefresh_dt (s : State) : (s.inputRefresh).dt = s.dt := rfl
@[simp] theorem inputRefresh_st (s : State) : (s.inputRefresh).st = s.st := rfl
@[simp] theorem inputRefresh_run (s : State) : (s.inputRefresh).run = s.run := rfl
@[simp] theorem inputRefresh_unk (s : State) : (s.inputRefresh).unk = s.unk := rfl
@[simp] theorem inputRefresh_policy (s : State) : (s.inputRefresh).policy = s.policy := rfl
@[simp] theorem inputRefresh_inputs (s : State) : (s.inputRefresh).inputs = s.inputs := rfl
@[simp] theorem inputRefresh_freeCount (s : State) : (s.inputRefresh).freeCount = s.freeCount := rfl
@[simp] theorem inputRefresh_reg (s : State) (q : Reg) : (s.inputRefresh).reg q = s.reg q := rfl
@[simp] theorem inputRefresh_input (s : State) : (s.inputRefresh).input = s.input := rfl

/-! ### `raise` -/

@[simp] theorem raise_mem (s : State) (r : FaultRecord) : (s.raise r).mem = s.mem := rfl
@[simp] theorem raise_regs (s : State) (r : FaultRecord) : (s.raise r).regs = s.regs := rfl
@[simp] theorem raise_i (s : State) (r : FaultRecord) : (s.raise r).i = s.i := rfl
@[simp] theorem raise_pc (s : State) (r : FaultRecord) : (s.raise r).pc = r.pc := rfl
@[simp] theorem raise_sp (s : State) (r : FaultRecord) : (s.raise r).sp = s.sp := rfl
@[simp] theorem raise_stack (s : State) (r : FaultRecord) : (s.raise r).stack = s.stack := rfl
@[simp] theorem raise_dt (s : State) (r : FaultRecord) : (s.raise r).dt = s.dt := rfl
@[simp] theorem raise_st (s : State) (r : FaultRecord) : (s.raise r).st = s.st := rfl
@[simp] theorem raise_run (s : State) (r : FaultRecord) : (s.raise r).run = .faulted r := rfl
@[simp] theorem raise_unk (s : State) (r : FaultRecord) : (s.raise r).unk = s.unk := rfl
@[simp] theorem raise_policy (s : State) (r : FaultRecord) : (s.raise r).policy = s.policy := rfl
@[simp] theorem raise_inputs (s : State) (r : FaultRecord) : (s.raise r).inputs = s.inputs := rfl
@[simp] theorem raise_freeCount (s : State) (r : FaultRecord) : (s.raise r).freeCount = s.freeCount := rfl
@[simp] theorem raise_reg (s : State) (r : FaultRecord) (q : Reg) : (s.raise r).reg q = s.reg q := rfl
@[simp] theorem raise_input (s : State) (r : FaultRecord) : (s.raise r).input = s.input := rfl

/-! ### `skipIf` -/

@[simp] theorem skipIf_mem (s : State) (c : Bool) : (s.skipIf c).mem = s.mem := by cases c <;> rfl
@[simp] theorem skipIf_regs (s : State) (c : Bool) : (s.skipIf c).regs = s.regs := by cases c <;> rfl
@[simp] theorem skipIf_i (s : State) (c : Bool) : (s.skipIf c).i = s.i := by cases c <;> rfl
@[simp] theorem skipIf_pc (s : State) (c : Bool) : (s.skipIf c).pc = if c then s.pc + 2 else s.pc := by cases c <;> rfl
@[simp] theorem skipIf_sp (s : State) (c : Bool) : (s.skipIf c).sp = s.sp := by cases c <;> rfl
@[simp] theorem skipIf_stack (s : State) (c : Bool) : (s.skipIf c).stack = s.stack := by cases c <;> rfl
@[simp] theorem skipIf_dt (s : State) (c : Bool) : (s.skipIf c).dt = s.dt := by cases c <;> rfl
@[simp] theorem skipIf_st (s : State) (c : Bool) : (s.skipIf c).st = s.st := by cases c <;> rfl
@[simp] theorem skipIf_run (s : State) (c : Bool) : (s.skipIf c).run = s.run := by cases c <;> rfl
@[simp] theorem skipIf_unk (s : State) (c : Bool) : (s.skipIf c).unk = s.unk := by cases c <;> rfl
@[simp] theorem skipIf_policy (s : State) (c : Bool) : (s.skipIf c).policy = s.policy := by cases c <;> rfl
@[simp] theorem skipIf_inputs (s : State) (c : Bool) : (s.skipIf c).inputs = s.inputs := by cases c <;> rfl
@[simp] theorem skipIf_freeCount (s : State) (c : Bool) : (s.skipIf c).freeCount = s.freeCount := by cases c <;> rfl
@[simp] theorem skipIf_reg (s : State) (c : Bool) (q : Reg) : (s.skipIf c).reg q = s.reg q := by cases c <;> rfl

/-! ### `consumeInput` -/

@[simp] theorem consumeInput_mem (s : State) : s.consumeInput.mem = s.mem := by unfold State.consumeInput; split <;> rfl
@[simp] theorem consumeInput_regs (s : State) : s.consumeInput.regs = s.regs := by unfold State.consumeInput; split <;> rfl
@[simp] theorem consumeInput_i (s : State) : s.consumeInput.i = s.i := by unfold State.consumeInput; split <;> rfl
@[simp] theorem consumeInput_pc (s : State) : s.consumeInput.pc = s.pc := by unfold State.consumeInput; split <;> rfl
@[simp] theorem consumeInput_sp (s : State) : s.consumeInput.sp = s.sp := by unfold State.consumeInput; split <;> rfl
@[simp] theorem consumeInput_stack (s : State) : s.consumeInput.stack = s.stack := by unfold State.consumeInput; split <;> rfl
@[simp] theorem consumeInput_dt (s : State) : s.consumeInput.dt = s.dt := by unfold State.consumeInput; split <;> rfl
@[simp] theorem consumeInput_st (s : State) : s.consumeInput.st = s.st := by unfold State.consumeInput; split <;> rfl
@[simp] theorem consumeInput_run (s : State) : s.consumeInput.run = s.run := by unfold State.consumeInput; split <;> rfl
@[simp] theorem consumeInput_unk (s : State) : s.consumeInput.unk = s.unk := by unfold State.consumeInput; split <;> rfl
@[simp] theorem consumeInput_policy (s : State) : s.consumeInput.policy = s.policy := by unfold State.consumeInput; split <;> rfl
@[simp] theorem consumeInput_reg (s : State) (q : Reg) : s.consumeInput.reg q = s.reg q := by unfold State.consumeInput; split <;> rfl
@[simp] theorem consumeInput_inputs (s : State) : s.consumeInput.inputs = s.inputs.tail := by unfold State.consumeInput; split <;> simp_all
theorem consumeInput_freeCount (s : State) : s.consumeInput.freeCount = if s.inputs = [] then s.freeCount + 1 else s.freeCount := by unfold State.consumeInput; split <;> simp_all

/-! ### Registers after an update -/

@[simp] theorem reg_setReg (s : State) (r : Reg) (v : Byte) (q : Reg) :
    (s.setReg r v).reg q = if q = r then v else s.reg q := by
  simp only [reg, setReg, Fin.getElem_fin, Vector.getElem_set, Fin.ext_iff, eq_comm (a := q.val)]

@[simp] theorem reg_setFlag (s : State) (v : Byte) (q : Reg) :
    (s.setFlag v).reg q = if q = flagReg then v else s.reg q :=
  reg_setReg s flagReg v q

theorem reg_loadRegsFrom (s : State) (b : Nat) (x q : Reg) :
    (s.loadRegsFrom b x).reg q = if q ≤ x then s.mem.read (b + q.val) else s.reg q := by
  simp [reg, loadRegsFrom]

@[simp] theorem raiseExec_eq (s : State) (w : Word) (c : FaultCause) (a : Option Nat) (v : Option Byte) :
    s.raiseExec w c a v = s.raise { cause := c, pc := s.pc - 2, word := some w, addr := a, value := v } := rfl

/-- Register files that agree on every register are equal. -/
theorem regs_ext {s t : State} (h : ∀ q : Reg, t.reg q = s.reg q) : t.regs = s.regs := by
  apply Vector.ext
  intro k hk
  exact h ⟨k, hk⟩

end Sys2Proof.Machine.State
end

