-- ==== Sys2Proof/Laws/Ops.lean ====
section
/-! SUPPORT. One specification per shared operation: what it answers, and on which operands. The proofs about
instructions cite these and do not unfold the operations. -/

namespace Sys2Proof.Machine

open State

/-! ### The checked forms -/

theorem withIndexSpan_in {s : State} {n : Nat} (h : n = 0 ∨ s.i.toNat + n ≤ 4096) (w : Word) (f : Nat → State) :
    s.withIndexSpan w n f = f s.i.toNat := by
  rw [State.withIndexSpan, firstOutOfRange_eq_none.2 h]

theorem withIndexSpan_out {s : State} {n : Nat} (h0 : n ≠ 0) (h : 4096 < s.i.toNat + n) (w : Word) (f : Nat → State) :
    s.withIndexSpan w n f = s.raiseExec w .bounds (some (max s.i.toNat 4096)) none := by
  rw [State.withIndexSpan, firstOutOfRange_eq_some.2 ⟨h0, h, rfl⟩]

/-- Everything a checked access can be. -/
theorem withIndexSpan_cases (s : State) (w : Word) (n : Nat) (f : Nat → State) :
    ((n = 0 ∨ s.i.toNat + n ≤ 4096) ∧ s.withIndexSpan w n f = f s.i.toNat) ∨
      (n ≠ 0 ∧ 4096 < s.i.toNat + n ∧
        s.withIndexSpan w n f = s.raiseExec w .bounds (some (max s.i.toNat 4096)) none) := by
  by_cases h : n = 0 ∨ s.i.toNat + n ≤ 4096
  · exact .inl ⟨h, withIndexSpan_in h w f⟩
  · exact .inr ⟨by omega, by omega, withIndexSpan_out (by omega) (by omega) w f⟩

theorem withKey_lt {s : State} {v : Byte} (h : v.toNat < 16) (w : Word) (f : Nat → State) :
    s.withKey w v f = f v.toNat := by
  rw [State.withKey, if_pos (by simpa using h)]

theorem withKey_ge {s : State} {v : Byte} (h : 16 ≤ v.toNat) (w : Word) (f : Nat → State) :
    s.withKey w v f = s.raiseExec w .keyIndex none (some v) := by
  rw [State.withKey, if_neg (by simp only [Config.numKeys]; omega)]

/-- Everything a checked key test can be. -/
theorem withKey_cases (s : State) (w : Word) (v : Byte) (f : Nat → State) :
    (v.toNat < 16 ∧ s.withKey w v f = f v.toNat) ∨
      (16 ≤ v.toNat ∧ s.withKey w v f = s.raiseExec w .keyIndex none (some v)) := by
  by_cases h : v.toNat < 16
  · exact .inl ⟨h, withKey_lt h w f⟩
  · exact .inr ⟨by omega, withKey_ge (by omega) w f⟩

/-- A fault raised after the PC advance leaves nothing of the advance (R204). -/
theorem raiseExec_advancePc (s : State) (w : Word) (c : FaultCause) (a : Option Nat) (v : Option Byte) :
    s.advancePc.raiseExec w c a v = s.raise ⟨c, s.pc, some w, a, v⟩ := by
  simp only [State.raiseExec, State.advancePc, State.raise, State.setPc, BitVec.add_sub_cancel]

/-! ### The stack and the timers -/

theorem pop_eq_some {s : State} (h : s.sp.toNat < 16) :
    s.pop = some { s with pc := s.stack[s.sp.toNat], sp := s.sp - 1 } := by
  rw [State.pop, Vector.getElem?_eq_getElem h]; rfl

theorem pop_eq_none {s : State} (h : 16 ≤ s.sp.toNat) : s.pop = none := by
  rw [State.pop, Vector.getElem?_eq_none h]; rfl

/-- A timer counts down by one and stays at 0 (R28). -/
theorem countDown_toNat (t : Byte) : (countDown t).toNat = t.toNat - 1 := by
  unfold countDown
  split
  · next h =>
    have : 0 < t.toNat := by simpa [BitVec.lt_def] using h
    rw [BitVec.toNat_sub_of_le (by simp [BitVec.le_def]; omega)]
    simp
  · next h =>
    have : ¬ 0 < t.toNat := by simpa [BitVec.lt_def] using h
    omega

/-! ### Input refresh (R92) -/

/-- What each byte reads after the input refresh. -/
theorem read_inputRefresh (s : State) (a : Nat) : s.inputRefresh.mem.read a = refreshed s a := by
  have hlen : (s.input.keys.toList.map keyByte).length = 16 := by simp
  rw [inputRefresh_mem, Memory.read_writeBytes _ _ _ (by rw [hlen]; omega), hlen, refreshed]
  split
  · next h =>
    have hk : a - 337 < 16 := by omega
    simp [List.getD_eq_getElem?_getD, hk, keyByte]
  · rfl

theorem wf_inputRefresh {s : State} (h : s.mem.wf) : s.inputRefresh.mem.wf := Memory.wf_writeBytes h _ _

theorem keyByte_ne_zero (b : Bool) : (keyByte b != 0) = b := by cases b <;> rfl

/-- After the refresh, a key is pressed iff the snapshot says so. -/
theorem keyPressed_inputRefresh (s : State) (k : Fin 16) :
    s.inputRefresh.mem.keyPressed k.val = s.input.keys[k] := by
  have hk := k.isLt
  rw [Memory.keyPressed, read_inputRefresh, refreshed, dif_pos (by simp only [keyAddr, Config.keyBase]; omega)]
  simp only [keyAddr, Config.keyBase, Nat.add_sub_cancel_left, Fin.getElem_fin]
  cases s.input.keys[k.val] <;> rfl

theorem firstPressed_eq_none {m : Memory} : m.firstPressed = none ↔ ∀ k : Fin 16, m.keyPressed k.val = false := by
  simp [Memory.firstPressed]

/-- The scan finds the lowest pressed key (R100). -/
theorem firstPressed_eq_some {m : Memory} {k : Fin 16} :
    m.firstPressed = some k ↔ m.keyPressed k.val = true ∧ ∀ j : Fin 16, j < k → m.keyPressed j.val = false := by
  simp only [Memory.firstPressed, List.find?_eq_some_iff_getElem, List.length_finRange, List.getElem_finRange,
    Bool.not_eq_eq_eq_not, Bool.not_true]
  constructor
  · rintro ⟨hk, n, hn, rfl, hj⟩
    exact ⟨hk, fun j hjn => hj j.val hjn⟩
  · rintro ⟨hk, hj⟩
    exact ⟨hk, k.val, k.isLt, rfl, fun j hjk => hj ⟨j, Nat.lt_trans hjk k.isLt⟩ hjk⟩

theorem firstPressed_inputRefresh {s : State} {k : Fin 16} (h : LowestPressed s k) :
    s.inputRefresh.mem.firstPressed = some k :=
  firstPressed_eq_some.2 ⟨(keyPressed_inputRefresh s k).trans h.1, fun j hj => (keyPressed_inputRefresh s j).trans (h.2 j hj)⟩

theorem firstPressed_inputRefresh_none {s : State} (h : ∀ k : Fin 16, s.input.keys[k] = false) :
    s.inputRefresh.mem.firstPressed = none :=
  firstPressed_eq_none.2 fun k => (keyPressed_inputRefresh s k).trans (h k)

/-! ### The two instructions that use the stack -/

theorem execRet_underflow {s : State} (h : s.sp = 0) :
    exec .ret s = .next (s.raiseExec (encode .ret) .stackUnderflow none none) := by
  simp only [exec, execRet, if_pos h]

theorem execRet_pop {s : State} (h0 : s.sp ≠ 0) (h : s.sp.toNat < 16) :
    exec .ret s = .next { s with pc := s.stack[s.sp.toNat], sp := s.sp - 1 } := by
  simp only [exec, execRet, if_neg h0, pop_eq_some h]

theorem execRet_noEntry {s : State} (h : 16 ≤ s.sp.toNat) : exec .ret s = .fault .noStackEntry := by
  have h0 : s.sp ≠ 0 := by
    intro h'
    rw [h'] at h
    simp at h
  simp only [exec, execRet, if_neg h0, pop_eq_none h]

theorem execCall_overflow {s : State} (h : 15 ≤ s.sp.toNat) (nnn : Addr12) :
    exec (.call nnn) s = .next (s.raiseExec (encode (.call nnn)) .stackOverflow none none) := by
  simp only [exec, execCall, Config.maxSp, if_pos h]

theorem execCall_push {s : State} (h : s.sp.toNat < 15) (nnn : Addr12) :
    exec (.call nnn) s = .next ((s.push s.pc).setPc (extendAddr nnn)) := by
  simp only [exec, execCall, Config.maxSp, if_neg (Nat.not_le.2 h)]

/-! ### Execution: everything an instruction can do to RUN -/

/-- The fault an instruction can raise in a state, with the condition of its rule. -/
inductive ExecFault (i : Instr) (s : State) : FaultCause → Option Nat → Option Byte → Prop where
  | bounds (n : Nat) (hn : indexSpan i = some n) (h0 : n ≠ 0) (h : 4096 < s.i.toNat + n) :
      ExecFault i s .bounds (some (max s.i.toNat 4096)) none
  | overflow (nnn : Addr12) (hi : i = .call nnn) (h : 15 ≤ s.sp.toNat) : ExecFault i s .stackOverflow none none
  | underflow (hi : i = .ret) (h : s.sp = 0) : ExecFault i s .stackUnderflow none none
  | key (x : Reg) (hi : i = .skipKeyDown x ∨ i = .skipKeyUp x) (h : 16 ≤ (s.reg x).toNat) :
      ExecFault i s .keyIndex none (some (s.reg x))

/-- An instruction that answers a next state leaves RUN alone or raises its fault, with nothing else changed. -/
theorem exec_run {i : Instr} {s t : State} (h : exec i s = .next t) :
    t.run = s.run ∨ ∃ c a v, ExecFault i s c a v ∧ t = s.raiseExec (encode i) c a v := by
  have span : ∀ {n : Nat} {f : Nat → State}, .next (s.withIndexSpan (encode i) n f) = (.next t : Result) →
      indexSpan i = some n → (∀ b, (f b).run = s.run) →
      t.run = s.run ∨ ∃ c a v, ExecFault i s c a v ∧ t = s.raiseExec (encode i) c a v := by
    intro n f ht hn hf
    cases ht
    rcases withIndexSpan_cases s (encode i) n f with ⟨_, he⟩ | ⟨h0, hb, he⟩
    · exact .inl (by rw [he, hf])
    · exact .inr ⟨_, _, _, .bounds n hn h0 hb, he⟩
  have key : ∀ {x : Reg} {f : Nat → State}, .next (s.withKey (encode i) (s.reg x) f) = (.next t : Result) →
      (i = .skipKeyDown x ∨ i = .skipKeyUp x) → (∀ b, (f b).run = s.run) →
      t.run = s.run ∨ ∃ c a v, ExecFault i s c a v ∧ t = s.raiseExec (encode i) c a v := by
    intro x f ht hi hf
    cases ht
    rcases withKey_cases s (encode i) (s.reg x) f with ⟨_, he⟩ | ⟨hk, he⟩
    · exact .inl (by rw [he, hf])
    · exact .inr ⟨_, _, _, .key x hi hk, he⟩
  cases i with
  | bcd x => exact span h rfl (fun _ => rfl)
  | storeRegs x => exact span h rfl (fun _ => rfl)
  | loadRegs x => exact span h rfl (fun _ => rfl)
  | drawSprite x y n => exact span h rfl (fun _ => rfl)
  | skipKeyDown x => exact key h (.inl rfl) (fun _ => by simp)
  | skipKeyUp x => exact key h (.inr rfl) (fun _ => by simp)
  | call nnn =>
    simp only [exec, execCall] at h
    split at h
    · next hs => cases h; exact .inr ⟨_, _, _, .overflow nnn rfl (by simpa using hs), rfl⟩
    · cases h; exact .inl rfl
  | ret =>
    simp only [exec, execRet] at h
    split at h
    · next hs => cases h; exact .inr ⟨_, _, _, .underflow rfl hs, rfl⟩
    · split at h
      · next u hu =>
        cases h
        simp only [State.pop, Option.map_eq_some_iff] at hu
        obtain ⟨_, _, rfl⟩ := hu
        exact .inl rfl
      · cases h
  | skipEqImm | skipNeImm | skipEqReg | skipNeReg => cases h; exact .inl (by simp)
  | clearScreen =>
    simp only [exec, execClearScreen, Host.Outcome.next.injEq] at h
    exact .inl (by rw [← h, storeBytes_run])
  | jump | loadImm | addImm | copy | orReg | andReg | xorReg | addCarry | subBorrow | shiftRight
  | subBorrowRev | shiftLeft | loadIndex | jumpOffset | randAnd | readDelay | awaitKey | writeDelay | writeSound
  | addIndex | fontAddr => cases h; exact .inl rfl

/-- Every instruction answers a next state while the stack pointer is legal; the one stop is a return above it. -/
theorem exec_answers {i : Instr} {s : State} (h : s.sp.toNat ≤ 15) : ∃ t, exec i s = .next t := by
  cases i with
  | call nnn => simp only [exec, execCall]; split <;> exact ⟨_, rfl⟩
  | ret =>
    simp only [exec, execRet]
    split
    · exact ⟨_, rfl⟩
    · rw [pop_eq_some (by omega)]; exact ⟨_, rfl⟩
  | _ => exact ⟨_, rfl⟩

end Sys2Proof.Machine
end

