-- ==== Sys2Proof/Laws/Draw.lean ====
section
/-! SUPPORT. A draw whose sprite data lies outside the rows drawn, as one XOR per row, and the pixels it lights. -/

namespace Sys2Proof.Machine

/-- A row read after a row was written. -/
theorem readRow_writeRow (m : Memory) (v : RowBits) {r q : Nat} (hr : r < 32) :
    (m.writeRow r v).readRow q = if q = r then v else m.readRow q := by
  apply BitVec.eq_of_getLsbD_eq
  intro j hj
  rw [show j = 63 - (63 - j) by omega, getLsbD_readRow _ _ (by omega), read_writeRow _ hr]
  have ra : rowAddr q = 80 + 8 * q := rfl
  have rb : rowAddr r = 80 + 8 * r := rfl
  by_cases h : q = r
  · subst h
    rw [if_pos (by omega), if_pos rfl, rowByte, BitVec.getLsbD_extractLsb']
    have : decide (7 - (63 - j) % 8 < 8) = true := by simp; omega
    rw [this, Bool.true_and]
    congr 1; omega
  · rw [if_neg (by omega), if_neg h, getLsbD_readRow _ _ (by omega)]

/-- Two rows meet iff they have a common lit column. -/
theorem and_ne_zero_iff (a b : RowBits) :
    a &&& b ≠ 0 ↔ ∃ px < 64, a.getLsbD (63 - px) = true ∧ b.getLsbD (63 - px) = true := by
  constructor
  · intro h
    by_contra hc
    apply h
    apply BitVec.eq_of_getLsbD_eq
    intro j hj
    simp only [BitVec.getLsbD_and, BitVec.ofNat_eq_ofNat, BitVec.getLsbD_zero]
    by_contra hb
    simp only [Bool.not_eq_false, Bool.and_eq_true] at hb
    exact hc ⟨63 - j, by omega, by rw [show 63 - (63 - j) = j by omega]; exact hb⟩
  · rintro ⟨px, hp, h1, h2⟩ h0
    have := congrArg (fun v => v.getLsbD (63 - px)) h0
    simp [h1, h2] at this

/-- Which sprite byte is drawn on a row: the distance from the start row, modulo 32. -/
def rowOffset (y : Byte) (row : Nat) : Nat := (row + 32 - y.toNat % 32) % 32

theorem rowOffset_spriteRow (y : Byte) {k : Nat} (hk : k < 32) : rowOffset y (spriteRow y k) = k := by
  simp only [rowOffset, spriteRow, Config.displayH]; omega

/-- The first `m` rows of a draw of `n` rows with its data outside them: the data still reads as before, each row drawn
is XORed with its lane, and a collision is a meeting of an old row with its lane (R113, R114). -/
theorem drawRows_disjoint {s : State} {y : Reg} {n : Nat} (hn : n < 32) (ho : SpriteOutsideRows s y n) (xv : Byte) :
    ∀ m ≤ n,
      (∀ k < n, (drawRows s.i.toNat xv (s.reg y) m s.mem).1.read (s.i.toNat + k) = s.mem.read (s.i.toNat + k)) ∧
      (∀ q < 32, (drawRows s.i.toNat xv (s.reg y) m s.mem).1.readRow q =
        if (∃ k < m, spriteRow (s.reg y) k = q) then
          s.mem.readRow q ^^^ spriteLane (s.mem.read (s.i.toNat + rowOffset (s.reg y) q)) (spriteColumn xv)
        else s.mem.readRow q) ∧
      ((drawRows s.i.toNat xv (s.reg y) m s.mem).2 = true ↔
        ∃ k < m, s.mem.readRow (spriteRow (s.reg y) k) &&&
          spriteLane (s.mem.read (s.i.toNat + k)) (spriteColumn xv) ≠ 0) := by
  intro m
  induction m with
  | zero => intro _; refine ⟨fun _ _ => rfl, fun q _ => ?_, ?_⟩ <;> simp [drawRows]
  | succ m ih =>
    intro hm
    obtain ⟨h1, h2, h3⟩ := ih (by omega)
    have hr := spriteRow_lt (s.reg y) m
    have hfresh : ¬ ∃ k < m, spriteRow (s.reg y) k = spriteRow (s.reg y) m := by
      rintro ⟨k, hk, he⟩; simp only [spriteRow, Config.displayH] at he; omega
    have hold : (drawRows s.i.toNat xv (s.reg y) m s.mem).1.readRow (spriteRow (s.reg y) m) =
        s.mem.readRow (spriteRow (s.reg y) m) := by
      rw [h2 _ hr, if_neg hfresh]
    refine ⟨fun k hk => ?_, fun q hq => ?_, ?_⟩
    · simp only [drawRows]
      rw [read_drawRow _ hr, if_neg, h1 k hk]
      have := ho k hk m (by omega)
      omega
    · simp only [drawRows, drawRow]
      rw [readRow_writeRow _ _ hr, h1 m (by omega), hold]
      by_cases h : q = spriteRow (s.reg y) m
      · rw [if_pos h, if_pos ⟨m, by omega, h.symm⟩, h, rowOffset_spriteRow _ (by omega)]
      · rw [if_neg h, h2 q hq]
        have e : (∃ k < m + 1, spriteRow (s.reg y) k = q) ↔ ∃ k < m, spriteRow (s.reg y) k = q := by
          constructor
          · rintro ⟨k, hk, he⟩
            by_cases hkm : k = m
            · subst hkm; exact absurd he.symm h
            · exact ⟨k, by omega, he⟩
          · rintro ⟨k, hk, he⟩; exact ⟨k, by omega, he⟩
        simp only [e]
    · simp only [drawRows, drawRow_collides, Bool.or_eq_true, h3, hold, h1 m (by omega), bne_iff_ne]
      constructor
      · rintro (⟨k, hk, h⟩ | h)
        · exact ⟨k, by omega, h⟩
        · exact ⟨m, by omega, h⟩
      · rintro ⟨k, hk, h⟩
        by_cases hkm : k = m
        · subst hkm; exact .inr h
        · exact .inl ⟨k, by omega, h⟩

/-- A pixel the sprite lights, as a bit of its row's lane (R115). -/
theorem spriteLit_iff (s : State) (x y : Reg) {n : Nat} (hn : n < 32) {px py : Nat} (hx : px < 64) (hy : py < 32) :
    spriteLit s x y n px py ↔
      (∃ k < n, spriteRow (s.reg y) k = py) ∧
      (spriteLane (s.mem.read (s.i.toNat + rowOffset (s.reg y) py)) (spriteColumn (s.reg x))).getLsbD (63 - px) = true := by
  rw [getLsbD_spriteLane _ _ hx, Bool.and_eq_true, decide_eq_true_iff, spriteLit]
  simp only [spriteColumn, Config.displayW]
  constructor
  · rintro ⟨k, hk, h1, h2, h3, h4⟩
    have e : rowOffset (s.reg y) py = k := by simp only [rowOffset]; omega
    rw [e]
    exact ⟨⟨k, hk, h1⟩, ⟨h2, h3⟩, h4⟩
  · rintro ⟨⟨k, hk, h1⟩, ⟨h2, h3⟩, h4⟩
    simp only [spriteRow, Config.displayH] at h1
    have e : rowOffset (s.reg y) py = k := by simp only [rowOffset]; omega
    rw [e] at h4
    exact ⟨k, hk, h1, h2, h3, h4⟩

end Sys2Proof.Machine
end

