-- ==== Sys2Proof/Laws/PerInstr.lean ====
section
/-! SUPPORT. Facts about every instruction as syntax, one lemma per constructor. The family `EncodingRow`: the word an
instruction encodes to selects a row of the decode table (R74), and that row builds the instruction back. -/

namespace Sys2Proof.Laws.EncodingRow

/-- A row of the table is selected by the instruction's word and builds the instruction from it. -/
def Statement (i : Instr) : Prop :=
  ∃ r ∈ opcodeTable, r.selects (encode i) = true ∧ r.build (encode i) = i

/-! ### One lemma per format -/

theorem selects_top {op : Nibble} {p : Word} {build : Word → Instr} {w : Word} (hp : p = formatNnn op 0)
    (hw : topDigit w = op) : OpcodeRow.selects ⟨0xF000, p, build⟩ w = true := by
  simp only [OpcodeRow.selects, beq_iff_eq]
  exact (mask_top w).trans (by rw [hw, hp])

theorem selects_topLast {op n : Nibble} {p : Word} {build : Word → Instr} {w : Word} (hp : p = formatXyn op 0 0 n)
    (hw : topDigit w = op) (hn : fieldN w = n) : OpcodeRow.selects ⟨0xF00F, p, build⟩ w = true := by
  simp only [OpcodeRow.selects, beq_iff_eq]
  exact (mask_topLast w).trans (by rw [hw, hn, hp])

theorem selects_topByte {op : Nibble} {kk : Byte} {p : Word} {build : Word → Instr} {w : Word}
    (hp : p = formatXkk op 0 kk) (hw : topDigit w = op) (hk : fieldKk w = kk) :
    OpcodeRow.selects ⟨0xF0FF, p, build⟩ w = true := by
  simp only [OpcodeRow.selects, beq_iff_eq]
  exact (mask_topByte w).trans (by rw [hw, hk, hp])

theorem selects_all {p : Word} {build : Word → Instr} : OpcodeRow.selects ⟨0xFFFF, p, build⟩ p = true := by
  simp only [OpcodeRow.selects, beq_iff_eq]
  exact mask_full p

theorem mem_exactAndByte {r : OpcodeRow} (h : r ∈ rowsExactAndByte) : r ∈ opcodeTable :=
  List.mem_append_left _ (List.mem_append_left _ h)

theorem mem_regReg {r : OpcodeRow} (h : r ∈ rowsRegReg) : r ∈ opcodeTable :=
  List.mem_append_left _ (List.mem_append_right _ h)

theorem mem_topDigit {r : OpcodeRow} (h : r ∈ rowsTopDigit) : r ∈ opcodeTable :=
  List.mem_append_right _ h

/-! ### One lemma per constructor -/

theorem clearScreen : Statement .clearScreen :=
  ⟨⟨0xFFFF, 0x00E0, fun _ => .clearScreen⟩, mem_exactAndByte (by simp [rowsExactAndByte]), selects_all, rfl⟩

theorem ret : Statement .ret :=
  ⟨⟨0xFFFF, 0x00EE, fun _ => .ret⟩, mem_exactAndByte (by simp [rowsExactAndByte]), selects_all, rfl⟩

theorem jump (nnn : Addr12) : Statement (.jump nnn) :=
  ⟨⟨0xF000, 0x1000, fun w => .jump (fieldNnn w)⟩, mem_topDigit (by simp [rowsTopDigit]),
    selects_top rfl (topDigit_formatNnn 0x1 nnn), congrArg Instr.jump (fieldNnn_formatNnn 0x1 nnn)⟩

theorem call (nnn : Addr12) : Statement (.call nnn) :=
  ⟨⟨0xF000, 0x2000, fun w => .call (fieldNnn w)⟩, mem_topDigit (by simp [rowsTopDigit]),
    selects_top rfl (topDigit_formatNnn 0x2 nnn), congrArg Instr.call (fieldNnn_formatNnn 0x2 nnn)⟩

theorem loadIndex (nnn : Addr12) : Statement (.loadIndex nnn) :=
  ⟨⟨0xF000, 0xA000, fun w => .loadIndex (fieldNnn w)⟩, mem_topDigit (by simp [rowsTopDigit]),
    selects_top rfl (topDigit_formatNnn 0xA nnn), congrArg Instr.loadIndex (fieldNnn_formatNnn 0xA nnn)⟩

theorem jumpOffset (nnn : Addr12) : Statement (.jumpOffset nnn) :=
  ⟨⟨0xF000, 0xB000, fun w => .jumpOffset (fieldNnn w)⟩, mem_topDigit (by simp [rowsTopDigit]),
    selects_top rfl (topDigit_formatNnn 0xB nnn), congrArg Instr.jumpOffset (fieldNnn_formatNnn 0xB nnn)⟩

theorem skipEqImm (x : Reg) (kk : Byte) : Statement (.skipEqImm x kk) :=
  ⟨⟨0xF000, 0x3000, fun w => .skipEqImm (fieldX w) (fieldKk w)⟩, mem_topDigit (by simp [rowsTopDigit]),
    selects_top rfl (topDigit_formatXkk 0x3 x kk),
    congrArg₂ Instr.skipEqImm (fieldX_formatXkk 0x3 x kk) (fieldKk_formatXkk 0x3 x kk)⟩

theorem skipNeImm (x : Reg) (kk : Byte) : Statement (.skipNeImm x kk) :=
  ⟨⟨0xF000, 0x4000, fun w => .skipNeImm (fieldX w) (fieldKk w)⟩, mem_topDigit (by simp [rowsTopDigit]),
    selects_top rfl (topDigit_formatXkk 0x4 x kk),
    congrArg₂ Instr.skipNeImm (fieldX_formatXkk 0x4 x kk) (fieldKk_formatXkk 0x4 x kk)⟩

theorem loadImm (x : Reg) (kk : Byte) : Statement (.loadImm x kk) :=
  ⟨⟨0xF000, 0x6000, fun w => .loadImm (fieldX w) (fieldKk w)⟩, mem_topDigit (by simp [rowsTopDigit]),
    selects_top rfl (topDigit_formatXkk 0x6 x kk),
    congrArg₂ Instr.loadImm (fieldX_formatXkk 0x6 x kk) (fieldKk_formatXkk 0x6 x kk)⟩

theorem addImm (x : Reg) (kk : Byte) : Statement (.addImm x kk) :=
  ⟨⟨0xF000, 0x7000, fun w => .addImm (fieldX w) (fieldKk w)⟩, mem_topDigit (by simp [rowsTopDigit]),
    selects_top rfl (topDigit_formatXkk 0x7 x kk),
    congrArg₂ Instr.addImm (fieldX_formatXkk 0x7 x kk) (fieldKk_formatXkk 0x7 x kk)⟩

theorem randAnd (x : Reg) (kk : Byte) : Statement (.randAnd x kk) :=
  ⟨⟨0xF000, 0xC000, fun w => .randAnd (fieldX w) (fieldKk w)⟩, mem_topDigit (by simp [rowsTopDigit]),
    selects_top rfl (topDigit_formatXkk 0xC x kk),
    congrArg₂ Instr.randAnd (fieldX_formatXkk 0xC x kk) (fieldKk_formatXkk 0xC x kk)⟩

theorem skipEqReg (x y : Reg) : Statement (.skipEqReg x y) :=
  ⟨⟨0xF00F, 0x5000, fun w => .skipEqReg (fieldX w) (fieldY w)⟩, mem_regReg (by simp [rowsRegReg]),
    selects_topLast rfl (topDigit_formatXyn 0x5 x y 0x0) (fieldN_formatXyn 0x5 x y 0x0),
    congrArg₂ Instr.skipEqReg (fieldX_formatXyn 0x5 x y 0x0) (fieldY_formatXyn 0x5 x y 0x0)⟩

theorem copy (x y : Reg) : Statement (.copy x y) :=
  ⟨⟨0xF00F, 0x8000, fun w => .copy (fieldX w) (fieldY w)⟩, mem_regReg (by simp [rowsRegReg]),
    selects_topLast rfl (topDigit_formatXyn 0x8 x y 0x0) (fieldN_formatXyn 0x8 x y 0x0),
    congrArg₂ Instr.copy (fieldX_formatXyn 0x8 x y 0x0) (fieldY_formatXyn 0x8 x y 0x0)⟩

theorem orReg (x y : Reg) : Statement (.orReg x y) :=
  ⟨⟨0xF00F, 0x8001, fun w => .orReg (fieldX w) (fieldY w)⟩, mem_regReg (by simp [rowsRegReg]),
    selects_topLast rfl (topDigit_formatXyn 0x8 x y 0x1) (fieldN_formatXyn 0x8 x y 0x1),
    congrArg₂ Instr.orReg (fieldX_formatXyn 0x8 x y 0x1) (fieldY_formatXyn 0x8 x y 0x1)⟩

theorem andReg (x y : Reg) : Statement (.andReg x y) :=
  ⟨⟨0xF00F, 0x8002, fun w => .andReg (fieldX w) (fieldY w)⟩, mem_regReg (by simp [rowsRegReg]),
    selects_topLast rfl (topDigit_formatXyn 0x8 x y 0x2) (fieldN_formatXyn 0x8 x y 0x2),
    congrArg₂ Instr.andReg (fieldX_formatXyn 0x8 x y 0x2) (fieldY_formatXyn 0x8 x y 0x2)⟩

theorem xorReg (x y : Reg) : Statement (.xorReg x y) :=
  ⟨⟨0xF00F, 0x8003, fun w => .xorReg (fieldX w) (fieldY w)⟩, mem_regReg (by simp [rowsRegReg]),
    selects_topLast rfl (topDigit_formatXyn 0x8 x y 0x3) (fieldN_formatXyn 0x8 x y 0x3),
    congrArg₂ Instr.xorReg (fieldX_formatXyn 0x8 x y 0x3) (fieldY_formatXyn 0x8 x y 0x3)⟩

theorem addCarry (x y : Reg) : Statement (.addCarry x y) :=
  ⟨⟨0xF00F, 0x8004, fun w => .addCarry (fieldX w) (fieldY w)⟩, mem_regReg (by simp [rowsRegReg]),
    selects_topLast rfl (topDigit_formatXyn 0x8 x y 0x4) (fieldN_formatXyn 0x8 x y 0x4),
    congrArg₂ Instr.addCarry (fieldX_formatXyn 0x8 x y 0x4) (fieldY_formatXyn 0x8 x y 0x4)⟩

theorem subBorrow (x y : Reg) : Statement (.subBorrow x y) :=
  ⟨⟨0xF00F, 0x8005, fun w => .subBorrow (fieldX w) (fieldY w)⟩, mem_regReg (by simp [rowsRegReg]),
    selects_topLast rfl (topDigit_formatXyn 0x8 x y 0x5) (fieldN_formatXyn 0x8 x y 0x5),
    congrArg₂ Instr.subBorrow (fieldX_formatXyn 0x8 x y 0x5) (fieldY_formatXyn 0x8 x y 0x5)⟩

theorem shiftRight (x y : Reg) : Statement (.shiftRight x y) :=
  ⟨⟨0xF00F, 0x8006, fun w => .shiftRight (fieldX w) (fieldY w)⟩, mem_regReg (by simp [rowsRegReg]),
    selects_topLast rfl (topDigit_formatXyn 0x8 x y 0x6) (fieldN_formatXyn 0x8 x y 0x6),
    congrArg₂ Instr.shiftRight (fieldX_formatXyn 0x8 x y 0x6) (fieldY_formatXyn 0x8 x y 0x6)⟩

theorem subBorrowRev (x y : Reg) : Statement (.subBorrowRev x y) :=
  ⟨⟨0xF00F, 0x8007, fun w => .subBorrowRev (fieldX w) (fieldY w)⟩, mem_regReg (by simp [rowsRegReg]),
    selects_topLast rfl (topDigit_formatXyn 0x8 x y 0x7) (fieldN_formatXyn 0x8 x y 0x7),
    congrArg₂ Instr.subBorrowRev (fieldX_formatXyn 0x8 x y 0x7) (fieldY_formatXyn 0x8 x y 0x7)⟩

theorem shiftLeft (x y : Reg) : Statement (.shiftLeft x y) :=
  ⟨⟨0xF00F, 0x800E, fun w => .shiftLeft (fieldX w) (fieldY w)⟩, mem_regReg (by simp [rowsRegReg]),
    selects_topLast rfl (topDigit_formatXyn 0x8 x y 0xE) (fieldN_formatXyn 0x8 x y 0xE),
    congrArg₂ Instr.shiftLeft (fieldX_formatXyn 0x8 x y 0xE) (fieldY_formatXyn 0x8 x y 0xE)⟩

theorem skipNeReg (x y : Reg) : Statement (.skipNeReg x y) :=
  ⟨⟨0xF00F, 0x9000, fun w => .skipNeReg (fieldX w) (fieldY w)⟩, mem_regReg (by simp [rowsRegReg]),
    selects_topLast rfl (topDigit_formatXyn 0x9 x y 0x0) (fieldN_formatXyn 0x9 x y 0x0),
    congrArg₂ Instr.skipNeReg (fieldX_formatXyn 0x9 x y 0x0) (fieldY_formatXyn 0x9 x y 0x0)⟩

theorem drawSprite (x y : Reg) (n : Nibble) : Statement (.drawSprite x y n) :=
  ⟨⟨0xF000, 0xD000, fun w => .drawSprite (fieldX w) (fieldY w) (fieldN w)⟩, mem_topDigit (by simp [rowsTopDigit]),
    selects_top rfl (topDigit_formatXyn 0xD x y n),
    by simp only [encode, fieldX_formatXyn, fieldY_formatXyn, fieldN_formatXyn]⟩

theorem skipKeyDown (x : Reg) : Statement (.skipKeyDown x) :=
  ⟨⟨0xF0FF, 0xE09E, fun w => .skipKeyDown (fieldX w)⟩, mem_exactAndByte (by simp [rowsExactAndByte]),
    selects_topByte rfl (topDigit_formatXkk 0xE x 0x9E) (fieldKk_formatXkk 0xE x 0x9E),
    congrArg Instr.skipKeyDown (fieldX_formatXkk 0xE x 0x9E)⟩

theorem skipKeyUp (x : Reg) : Statement (.skipKeyUp x) :=
  ⟨⟨0xF0FF, 0xE0A1, fun w => .skipKeyUp (fieldX w)⟩, mem_exactAndByte (by simp [rowsExactAndByte]),
    selects_topByte rfl (topDigit_formatXkk 0xE x 0xA1) (fieldKk_formatXkk 0xE x 0xA1),
    congrArg Instr.skipKeyUp (fieldX_formatXkk 0xE x 0xA1)⟩

theorem readDelay (x : Reg) : Statement (.readDelay x) :=
  ⟨⟨0xF0FF, 0xF007, fun w => .readDelay (fieldX w)⟩, mem_exactAndByte (by simp [rowsExactAndByte]),
    selects_topByte rfl (topDigit_formatXkk 0xF x 0x07) (fieldKk_formatXkk 0xF x 0x07),
    congrArg Instr.readDelay (fieldX_formatXkk 0xF x 0x07)⟩

theorem awaitKey (x : Reg) : Statement (.awaitKey x) :=
  ⟨⟨0xF0FF, 0xF00A, fun w => .awaitKey (fieldX w)⟩, mem_exactAndByte (by simp [rowsExactAndByte]),
    selects_topByte rfl (topDigit_formatXkk 0xF x 0x0A) (fieldKk_formatXkk 0xF x 0x0A),
    congrArg Instr.awaitKey (fieldX_formatXkk 0xF x 0x0A)⟩

theorem writeDelay (x : Reg) : Statement (.writeDelay x) :=
  ⟨⟨0xF0FF, 0xF015, fun w => .writeDelay (fieldX w)⟩, mem_exactAndByte (by simp [rowsExactAndByte]),
    selects_topByte rfl (topDigit_formatXkk 0xF x 0x15) (fieldKk_formatXkk 0xF x 0x15),
    congrArg Instr.writeDelay (fieldX_formatXkk 0xF x 0x15)⟩

theorem writeSound (x : Reg) : Statement (.writeSound x) :=
  ⟨⟨0xF0FF, 0xF018, fun w => .writeSound (fieldX w)⟩, mem_exactAndByte (by simp [rowsExactAndByte]),
    selects_topByte rfl (topDigit_formatXkk 0xF x 0x18) (fieldKk_formatXkk 0xF x 0x18),
    congrArg Instr.writeSound (fieldX_formatXkk 0xF x 0x18)⟩

theorem addIndex (x : Reg) : Statement (.addIndex x) :=
  ⟨⟨0xF0FF, 0xF01E, fun w => .addIndex (fieldX w)⟩, mem_exactAndByte (by simp [rowsExactAndByte]),
    selects_topByte rfl (topDigit_formatXkk 0xF x 0x1E) (fieldKk_formatXkk 0xF x 0x1E),
    congrArg Instr.addIndex (fieldX_formatXkk 0xF x 0x1E)⟩

theorem fontAddr (x : Reg) : Statement (.fontAddr x) :=
  ⟨⟨0xF0FF, 0xF029, fun w => .fontAddr (fieldX w)⟩, mem_exactAndByte (by simp [rowsExactAndByte]),
    selects_topByte rfl (topDigit_formatXkk 0xF x 0x29) (fieldKk_formatXkk 0xF x 0x29),
    congrArg Instr.fontAddr (fieldX_formatXkk 0xF x 0x29)⟩

theorem bcd (x : Reg) : Statement (.bcd x) :=
  ⟨⟨0xF0FF, 0xF033, fun w => .bcd (fieldX w)⟩, mem_exactAndByte (by simp [rowsExactAndByte]),
    selects_topByte rfl (topDigit_formatXkk 0xF x 0x33) (fieldKk_formatXkk 0xF x 0x33),
    congrArg Instr.bcd (fieldX_formatXkk 0xF x 0x33)⟩

theorem storeRegs (x : Reg) : Statement (.storeRegs x) :=
  ⟨⟨0xF0FF, 0xF055, fun w => .storeRegs (fieldX w)⟩, mem_exactAndByte (by simp [rowsExactAndByte]),
    selects_topByte rfl (topDigit_formatXkk 0xF x 0x55) (fieldKk_formatXkk 0xF x 0x55),
    congrArg Instr.storeRegs (fieldX_formatXkk 0xF x 0x55)⟩

theorem loadRegs (x : Reg) : Statement (.loadRegs x) :=
  ⟨⟨0xF0FF, 0xF065, fun w => .loadRegs (fieldX w)⟩, mem_exactAndByte (by simp [rowsExactAndByte]),
    selects_topByte rfl (topDigit_formatXkk 0xF x 0x65) (fieldKk_formatXkk 0xF x 0x65),
    congrArg Instr.loadRegs (fieldX_formatXkk 0xF x 0x65)⟩

end Sys2Proof.Laws.EncodingRow
end

