-- ==== Sys2Proof/Laws/Tick.lean ====
section
/-! SUPPORT. What one step can do, said once: every invariant of the machine is read off `step_cases`. -/

namespace Sys2Proof.Machine

open State

theorem step_faulted {s : State} {r : FaultRecord} (h : s.run = .faulted r) : step s = .next s := by
  simp only [step, tick, h]

theorem step_running {s : State} (h : s.run = .running) :
    step s = s.inputRefresh.phase2.andThen State.consumeInput := by
  simp only [step, tick, h]

/-- The word a tick fetches. -/
theorem fetchWord_inputRefresh (s : State) : s.inputRefresh.fetchWord = fetched s := by
  simp only [State.fetchWord, inputRefresh_pc, read_inputRefresh, fetched]

/-- The refresh writes no wait cell. -/
theorem refreshed_outside {s : State} {a : Nat} (h : a < 337 ∨ 353 ≤ a) : refreshed s a = s.mem.read a := by
  rw [refreshed, dif_neg (by omega)]

theorem waitFsm_running {s : State} (h : s.mem.read 360 = 0) : s.inputRefresh.waitFsm = .running := by
  rw [State.waitFsm, if_pos]
  rw [Config.waitFlagAddr, read_inputRefresh, refreshed_outside (by omega), h]

theorem waitFsm_waiting {s : State} (h : s.mem.read 360 ≠ 0) :
    s.inputRefresh.waitFsm = .waitingForKey (s.mem.read 361) := by
  rw [State.waitFsm, Config.waitFlagAddr, Config.waitTargetAddr, read_inputRefresh, read_inputRefresh,
    refreshed_outside (by omega), refreshed_outside (by omega), if_neg h]

/-- A step that waits (R91, R100). -/
theorem step_waiting {s : State} (hr : s.run = .running) (hw : s.mem.read 360 ≠ 0) :
    step s = .next (s.inputRefresh.waitStep (s.mem.read 361)).consumeInput := by
  rw [step_running hr, State.phase2, waitFsm_waiting hw]; rfl

/-- A step that runs a CPU step (R91, R93). -/
theorem step_cpu {s : State} (hr : s.run = .running) (hw : s.mem.read 360 = 0) :
    step s = (s.inputRefresh.cpuStep.andThen timerStepIfRunning).andThen consumeInput := by
  rw [step_running hr, State.phase2, waitFsm_running hw]

/-- A fetch past memory (R94). -/
theorem cpuStep_bounds {s : State} (h : 4096 < s.pc.toNat + 2) :
    s.cpuStep = .next (s.raise ⟨.bounds, s.pc, none, some (max s.pc.toNat 4096), none⟩) := by
  rw [State.cpuStep, firstOutOfRange_eq_some.2 ⟨by omega, h, rfl⟩]

/-- A fetched word that decodes runs its instruction after the PC advance (R93, R95). -/
theorem cpuStep_exec {s : State} {i : Instr} (h : s.pc.toNat + 2 ≤ 4096) (hd : decodeWord s.fetchWord = some i) :
    s.cpuStep = exec i s.advancePc := by
  rw [State.cpuStep, firstOutOfRange_eq_none.2 (.inr h)]
  simp only [hd]

/-- A fetched word that matches no row (R96). -/
theorem cpuStep_unknown {s : State} (h : s.pc.toNat + 2 ≤ 4096) (hd : decodeWord s.fetchWord = none) :
    s.cpuStep = .next (s.advancePc.unknownOpcode s.fetchWord) := by
  rw [State.cpuStep, firstOutOfRange_eq_none.2 (.inr h)]
  simp only [hd]

/-- Everything a step of a running machine can be. -/
inductive StepCase (s : State) : State → Prop where
  /-- waiting, no key pressed -/
  | idle (hw : s.mem.read 360 ≠ 0) (hk : ∀ k : Fin 16, s.input.keys[k] = false) :
      StepCase s s.inputRefresh.consumeInput
  /-- waiting, resolved by key k into the target register -/
  | resolved (k : Fin 16) (hw : s.mem.read 360 ≠ 0) (hk : LowestPressed s k) (ht : (s.mem.read 361).toNat < 16) :
      StepCase s ((s.inputRefresh.setReg ⟨(s.mem.read 361).toNat, ht⟩ (regIndexByte k)).setMem
        (s.inputRefresh.mem.write 360 0)).consumeInput
  /-- waiting, a key pressed, no such register -/
  | badTarget (k : Fin 16) (hw : s.mem.read 360 ≠ 0) (hk : LowestPressed s k) (ht : 16 ≤ (s.mem.read 361).toNat) :
      StepCase s (s.inputRefresh.raise ⟨.waitTarget, s.pc, none, none, some (s.mem.read 361)⟩).consumeInput
  /-- the fetch is past memory -/
  | fetchBounds (hw : s.mem.read 360 = 0) (h : 4096 < s.pc.toNat + 2) :
      StepCase s (s.inputRefresh.raise ⟨.bounds, s.pc, none, some (max s.pc.toNat 4096), none⟩).consumeInput
  /-- an instruction runs -/
  | instr (i : Instr) (u : State) (hw : s.mem.read 360 = 0) (h : s.pc.toNat + 2 ≤ 4096)
      (hd : decodeWord (fetched s) = some i) (he : exec i s.inputRefresh.advancePc = .next u) :
      StepCase s u.timerStepIfRunning.consumeInput
  /-- an unknown opcode -/
  | unknown (hw : s.mem.read 360 = 0) (h : s.pc.toNat + 2 ≤ 4096) (hd : decodeWord (fetched s) = none) :
      StepCase s (s.inputRefresh.advancePc.unknownOpcode (fetched s)).timerStepIfRunning.consumeInput

theorem lowestPressed_of_firstPressed {s : State} {k : Fin 16} (h : s.inputRefresh.mem.firstPressed = some k) :
    LowestPressed s k := by
  have ⟨h1, h2⟩ := firstPressed_eq_some.1 h
  exact ⟨(keyPressed_inputRefresh s k).symm.trans h1, fun j hj => (keyPressed_inputRefresh s j).symm.trans (h2 j hj)⟩

theorem step_cases {s t : State} (hr : s.run = .running) (h : step s = .next t) : StepCase s t := by
  by_cases hw : s.mem.read 360 = 0
  · rw [step_cpu hr hw] at h
    by_cases hp : s.pc.toNat + 2 ≤ 4096
    · have hf := fetchWord_inputRefresh s
      cases hd : decodeWord (fetched s) with
      | none =>
        rw [cpuStep_unknown (s := s.inputRefresh) hp (by rw [hf, hd]), hf] at h
        cases h
        exact .unknown hw hp hd
      | some i =>
        rw [cpuStep_exec (s := s.inputRefresh) hp (by rw [hf, hd])] at h
        cases he : exec i s.inputRefresh.advancePc with
        | next u => rw [he] at h; cases h; exact .instr i u hw hp hd he
        | fault e => rw [he] at h; cases h
        | refused e => rw [he] at h; cases h
    · rw [cpuStep_bounds (by rw [inputRefresh_pc]; omega)] at h
      cases h
      exact .fetchBounds hw (by omega)
  · rw [step_waiting hr hw] at h
    cases h
    unfold State.waitStep
    split
    · next hk =>
      refine .idle hw fun k => ?_
      rw [← keyPressed_inputRefresh]
      exact firstPressed_eq_none.1 hk k
    · next k hk =>
      have hl := lowestPressed_of_firstPressed hk
      split
      · next ht => exact .resolved k hw hl ht
      · next ht => exact .badTarget k hw hl (by omega)

/-- The timer step runs iff RUN is Running (R98, R99). -/
theorem timerStepIfRunning_of_running {s : State} (h : s.run = .running) : s.timerStepIfRunning = s.timerStep := by
  simp only [State.timerStepIfRunning, h]

theorem timerStepIfRunning_of_faulted {s : State} {r : FaultRecord} (h : s.run = .faulted r) :
    s.timerStepIfRunning = s := by
  simp only [State.timerStepIfRunning, h]

end Sys2Proof.Machine
end

