-- ==== Sys2Proof/Tests/Slice0.lean ====
section
/-! SUPPORT. Tests. The expected results are those of the spec's own vectors (95_test_vectors.md, named in the
docstrings) or read from a rule's text; none is the model's own answer. Every test runs one step on a small state. The
last part shows, for each obligation with hypotheses, data that meet them. -/

namespace Sys2Proof.Tests

open Sys2Proof.Machine

/-! ### Helpers -/

/-- The reset state with some registers set. -/
def withRegs (rs : List (Reg × Byte)) : State := rs.foldl (fun s p => s.setReg p.1 p.2) State.reset

/-- The state with bytes stored from `a`. -/
def withBytes (s : State) (a : Nat) (vs : List Byte) : State := s.storeBytes a vs

/-- The state with one supplied host input: the keys pressed, and the random byte. -/
def withInput (s : State) (pressed : List Nat) (rnd : Byte) : State :=
  { s with inputs := [⟨Vector.ofFn fun k => pressed.contains k.val, rnd⟩] }

/-- One step on the word `w`, placed where the step fetches. -/
def run1 (s : State) (w : Nat) : Result := step (s.withFetchWord 16 w)

/-- The answer is a next state with the property. -/
def answers (r : Result) (p : State → Bool) : Bool :=
  match r with
  | .next t => p t
  | .fault _ => false
  | .refused _ => false

/-- The answer is a next state, Running, with the property. -/
def runsTo (r : Result) (p : State → Bool) : Bool := answers r fun t => decide (t.run = .running) && p t

/-- The answer is a next state that is Faulted with the record. -/
def faultsWith (r : Result) (record : FaultRecord) : Bool :=
  answers r fun t => decide (t.run = .faulted record) && decide (t.pc = record.pc)

/-! ### Well-formedness: each check refuses an ill-formed term -/

/-- R80: registers are R0..R15. -/
theorem test_wf_refuses_register_16 : AsmLine.wellFormed [] (.instr .copy [.reg 16, .reg 0]) = false := by decide
/-- R73: nnn has 12 bits. -/
theorem test_wf_refuses_nnn_4096 : AsmLine.wellFormed [] (.instr .jump [.num 4096]) = false := by decide
/-- R73: kk has 8 bits. -/
theorem test_wf_refuses_kk_256 : AsmLine.wellFormed [] (.instr .loadImm [.reg 0, .num 256]) = false := by decide
/-- R73: n has 4 bits. -/
theorem test_wf_refuses_n_16 : AsmLine.wellFormed [] (.instr .drawSprite [.reg 0, .reg 0, .num 16]) = false := by decide
/-- R80: the operands of a mnemonic. -/
theorem test_wf_refuses_wrong_operands :
    AsmLine.wellFormed [] (.instr .clearScreen [.reg 0]) = false ∧
    AsmLine.wellFormed [] (.instr .copy [.reg 0]) = false ∧
    AsmLine.wellFormed [] (.instr .loadImm [.num 0, .reg 0]) = false := by decide
/-- R80: a label must be bound, and stands only for an nnn. -/
theorem test_wf_refuses_labels :
    AsmLine.wellFormed [] (.instr .jump [.label "loop"]) = false ∧
    AsmLine.wellFormed ["loop"] (.instr .loadImm [.reg 0, .label "loop"]) = false ∧
    programWellFormed [.label "loop", .label "loop"] = false := by decide
/-- R80: the directives' widths. -/
theorem test_wf_refuses_wide_directives :
    AsmLine.wellFormed [] (.word 65536) = false ∧ AsmLine.wellFormed [] (.byte 256) = false := by decide
/-- R231: a ROM of 3585 bytes is refused and makes no machine; one of 3584 is not refused. -/
theorem test_wf_refuses_long_rom : romWellFormed (List.replicate 3585 0) = false := by
  simp only [romWellFormed, List.length_replicate]; decide
theorem test_wf_accepts_longest_rom : romWellFormed (List.replicate 3584 0) = true := by
  simp only [romWellFormed, List.length_replicate]; decide
theorem test_construct_refuses_long_rom :
    answers (construct referenceParams (List.replicate 3585 0) []) (fun _ => true) = false := by
  rw [construct, test_wf_refuses_long_rom]; rfl
/-- R80: what is well formed is not refused (program P1's loop). -/
theorem test_assemble_loop :
    assemble [.label "loop", .instr .addImm [.reg 1, .num 3], .instr .shiftRight [.reg 1], .instr .jump [.label "loop"]] =
      some [0x71, 0x03, 0x81, 0x06, 0x12, 0x00] := by decide

/-! ### Decoding: words written out from the encodings of R71 and R74 -/

/-- One word of each family, bit by bit: 00E0, 1nnn, 8xy7, Annn, ExA1, Dxyn. -/
theorem test_decode_bits :
    decodeWord 0b0000000011100000#16 = some .clearScreen ∧
    decodeWord 0b0001001000110100#16 = some (.jump 0x234) ∧
    decodeWord 0b1000001101000111#16 = some (.subBorrowRev 3 4) ∧
    decodeWord 0b1010001100000000#16 = some (.loadIndex 0x300) ∧
    decodeWord 0b1110001010100001#16 = some (.skipKeyUp 2) ∧
    decodeWord 0b1101000100100101#16 = some (.drawSprite 1 2 5) := by decide
/-- R74, the control rows. -/
theorem test_decode_control :
    decodeWord 0x00EE = some .ret ∧ decodeWord 0x2210 = some (.call 0x210) ∧
    decodeWord 0x331F = some (.skipEqImm 3 0x1F) ∧ decodeWord 0x431F = some (.skipNeImm 3 0x1F) ∧
    decodeWord 0x5120 = some (.skipEqReg 1 2) ∧ decodeWord 0x9120 = some (.skipNeReg 1 2) ∧
    decodeWord 0xB300 = some (.jumpOffset 0x300) := by decide
/-- R74, the arithmetic rows. -/
theorem test_decode_alu :
    decodeWord 0x6A9D = some (.loadImm 10 0x9D) ∧ decodeWord 0x7103 = some (.addImm 1 3) ∧
    decodeWord 0x8120 = some (.copy 1 2) ∧ decodeWord 0x8121 = some (.orReg 1 2) ∧
    decodeWord 0x8122 = some (.andReg 1 2) ∧ decodeWord 0x8123 = some (.xorReg 1 2) ∧
    decodeWord 0x8124 = some (.addCarry 1 2) ∧ decodeWord 0x8125 = some (.subBorrow 1 2) ∧
    decodeWord 0x8126 = some (.shiftRight 1 2) ∧ decodeWord 0x812E = some (.shiftLeft 1 2) ∧
    decodeWord 0xC30F = some (.randAnd 3 0x0F) := by decide
/-- R74, the key, timer, index and memory rows. -/
theorem test_decode_ef :
    decodeWord 0xE29E = some (.skipKeyDown 2) ∧ decodeWord 0xF407 = some (.readDelay 4) ∧
    decodeWord 0xF50A = some (.awaitKey 5) ∧ decodeWord 0xF315 = some (.writeDelay 3) ∧
    decodeWord 0xF318 = some (.writeSound 3) ∧ decodeWord 0xF21E = some (.addIndex 2) ∧
    decodeWord 0xF429 = some (.fontAddr 4) ∧ decodeWord 0xFA33 = some (.bcd 10) ∧
    decodeWord 0xF155 = some (.storeRegs 1) ∧ decodeWord 0xF265 = some (.loadRegs 2) := by decide
/-- E3, E5, E6, E8, E9, E10. -/
theorem test_decode_unknown :
    decodeWord 0x00E1 = none ∧ decodeWord 0x0123 = none ∧ decodeWord 0x0000 = none ∧ decodeWord 0x5121 = none ∧
    decodeWord 0x8128 = none ∧ decodeWord 0x9121 = none ∧ decodeWord 0xE1A2 = none ∧ decodeWord 0xE19F = none ∧
    decodeWord 0xF1FF = none ∧ decodeWord 0xF100 = none := by decide
/-- Bytes in memory order: the high byte first (R56); what is left over is handed on; one byte is no word. -/
theorem test_decode_bytes :
    decode [0x12, 0x34, 0x99] = .instr (.jump 0x234) [0x99] ∧ decode [0x51, 0x21] = .unknownOpcode 0x5121 ∧
    decode [0x12] = .truncated ∧ decode [] = .truncated := by decide
theorem test_decodeTableWord :
    decodeTableWord 16 0x8014 = some (.addCarry 0 1) ∧ decodeTableWord 16 0xF1FF = none := by decide

/-! ### Register and arithmetic family -/

/-- K3 -/
theorem test_load_imm : runsTo (run1 State.reset 0x6A9D) (fun t => t.reg 10 == 0x9D && t.pc == 0x202) = true := by decide
/-- K1 -/
theorem test_add_imm_wraps :
    runsTo (run1 (withRegs [(1, 0xFE), (15, 9)]) 0x7103) (fun t => t.reg 1 == 1 && t.reg 15 == 9) = true := by decide
/-- K2 -/
theorem test_add_imm_r15 : runsTo (run1 State.reset 0x7FFF) (fun t => t.reg 15 == 0xFF) = true := by decide
/-- R142's example: R1 takes R2. -/
theorem test_copy : runsTo (run1 (withRegs [(2, 9)]) 0x8120) (fun t => t.reg 1 == 9 && t.reg 2 == 9) = true := by decide
/-- O1 -/
theorem test_or :
    runsTo (run1 (withRegs [(1, 0x0C), (2, 0x0A), (15, 7)]) 0x8121) (fun t => t.reg 1 == 0x0E && t.reg 15 == 7) = true := by
  decide
/-- O2 -/
theorem test_and :
    runsTo (run1 (withRegs [(1, 0x0C), (2, 0x0A), (15, 7)]) 0x8122) (fun t => t.reg 1 == 0x08 && t.reg 15 == 7) = true := by
  decide
/-- O3 -/
theorem test_xor :
    runsTo (run1 (withRegs [(1, 0x0C), (2, 0x0A), (15, 7)]) 0x8123) (fun t => t.reg 1 == 0x06 && t.reg 15 == 7) = true := by
  decide
/-- A2 -/
theorem test_add_carry :
    runsTo (run1 (withRegs [(0, 200), (1, 100)]) 0x8014) (fun t => t.reg 0 == 44 && t.reg 15 == 1) = true := by decide
/-- A4: the carry overwrites the sum. -/
theorem test_add_carry_r15 : runsTo (run1 (withRegs [(15, 200), (1, 100)]) 0x8F14) (fun t => t.reg 15 == 1) = true := by
  decide
/-- B3: equal operands give flag 0. -/
theorem test_sub_borrow_equal :
    runsTo (run1 (withRegs [(0, 7), (1, 7), (15, 1)]) 0x8015) (fun t => t.reg 0 == 0 && t.reg 15 == 0) = true := by decide
/-- B6: the flag is written before the subtraction reads R15. -/
theorem test_sub_borrow_r15 : runsTo (run1 (withRegs [(15, 9), (1, 4)]) 0x8F15) (fun t => t.reg 15 == 0xFD) = true := by
  decide
/-- H1 -/
theorem test_shift_right :
    runsTo (run1 (withRegs [(1, 5)]) 0x8106) (fun t => t.reg 1 == 2 && t.reg 15 == 1) = true := by decide
/-- H4 -/
theorem test_shift_right_r15 : runsTo (run1 (withRegs [(15, 0xFF)]) 0x8F06) (fun t => t.reg 15 == 0) = true := by decide
/-- V1: the destination is Ry. -/
theorem test_sub_borrow_rev :
    runsTo (run1 (withRegs [(0, 3), (1, 5)]) 0x8017) (fun t => t.reg 1 == 2 && t.reg 15 == 1 && t.reg 0 == 3) = true := by
  decide
/-- V4 -/
theorem test_sub_borrow_rev_r15 :
    runsTo (run1 (withRegs [(15, 4), (1, 9)]) 0x8F17) (fun t => t.reg 1 == 8 && t.reg 15 == 1) = true := by decide
/-- L1v, with a y field that is ignored (R79). -/
theorem test_shift_left :
    runsTo (run1 (withRegs [(1, 0x81), (2, 7)]) 0x812E) (fun t => t.reg 1 == 2 && t.reg 15 == 1 && t.reg 2 == 7) = true := by
  decide
/-- L4v -/
theorem test_shift_left_r15 : runsTo (run1 (withRegs [(15, 0x80)]) 0x8F0E) (fun t => t.reg 15 == 2) = true := by decide
/-- N1 -/
theorem test_rand_and :
    runsTo (run1 (withInput State.reset [] 0xB7) 0xC30F) (fun t => t.reg 3 == 7 && t.inputs == []) = true := by decide
/-- R151, R97: without a supplied input the random byte is the free one, whatever it is. -/
theorem test_rand_and_free :
    (∃ t, exec (.randAnd 3 0x0F) State.reset = .next t ∧ t.reg 3 = Config.freeRnd 0 &&& 0x0F) ∧
    answers (run1 State.reset 0xC30F) (fun t => t.pc == 0x202 && t.freeCount == 1) = true :=
  ⟨⟨_, rfl, rfl⟩, by decide⟩

/-! ### Control-transfer family -/

/-- J1 -/
theorem test_jump : runsTo (run1 State.reset 0x1234) (fun t => t.pc == 0x234) = true := by decide
/-- J2 -/
theorem test_call :
    runsTo (run1 State.reset 0x2210) (fun t => t.sp == 1 && t.stack[1] == 0x202 && t.pc == 0x210) = true := by decide
/-- J3, its last tick. -/
theorem test_call_overflow :
    faultsWith (run1 { State.reset with sp := 15 } 0x2200) ⟨.stackOverflow, 0x200, some 0x2200, none, none⟩ = true := by
  decide
/-- R121's example. -/
theorem test_return :
    runsTo (run1 { State.reset with sp := 1, stack := State.reset.stack.set 1 0x206 } 0x00EE)
      (fun t => t.pc == 0x206 && t.sp == 0 && t.stack[1] == 0x206) = true := by decide
/-- J4 -/
theorem test_return_underflow :
    faultsWith (run1 State.reset 0x00EE) ⟨.stackUnderflow, 0x200, some 0x00EE, none, none⟩ = true := by decide
/-- J5 -/
theorem test_skip_eq_imm : runsTo (run1 (withRegs [(3, 0x1F)]) 0x331F) (fun t => t.pc == 0x204) = true := by decide
/-- J6 -/
theorem test_skip_eq_imm_not : runsTo (run1 (withRegs [(3, 0x20)]) 0x331F) (fun t => t.pc == 0x202) = true := by decide
/-- J7 -/
theorem test_skip_ne_imm : runsTo (run1 (withRegs [(3, 0x20)]) 0x431F) (fun t => t.pc == 0x204) = true := by decide
/-- J8 -/
theorem test_skip_eq_reg : runsTo (run1 (withRegs [(1, 7), (2, 7)]) 0x5120) (fun t => t.pc == 0x204) = true := by decide
/-- J9 -/
theorem test_skip_ne_reg : runsTo (run1 (withRegs [(1, 7), (2, 8)]) 0x9120) (fun t => t.pc == 0x204) = true := by decide
/-- J10 -/
theorem test_skip_ne_reg_same : runsTo (run1 State.reset 0x9110) (fun t => t.pc == 0x202) = true := by decide
/-- J11 -/
theorem test_jump_offset : runsTo (run1 (withRegs [(0, 4)]) 0xB300) (fun t => t.pc == 0x304) = true := by decide
/-- J12: the target is not reduced modulo 4096. -/
theorem test_jump_offset_past_memory :
    runsTo (run1 (withRegs [(0, 0xFF)]) 0xBFFF) (fun t => t.pc == 0x10FE) = true := by decide

/-! ### Index register and memory family -/

/-- X1 -/
theorem test_load_index : runsTo (run1 State.reset 0xA300) (fun t => t.i == 0x300) = true := by decide
/-- X2 -/
theorem test_add_index_wraps :
    runsTo (run1 { withRegs [(0, 1)] with i := 0xFFFF } 0xF01E) (fun t => t.i == 0 && t.reg 15 == 0) = true := by decide
/-- X3 -/
theorem test_add_index_past_memory :
    runsTo (run1 { withRegs [(0, 1)] with i := 0x0FFF } 0xF01E) (fun t => t.i == 0x1000) = true := by decide
/-- X4: glyph A, under the reference FONT. -/
theorem test_font_addr :
    runsTo (run1 (withRegs [(0, 0x0A)]) 0xF029)
      (fun t => t.i == 50 && t.mem.readBytes 50 5 == [0xF0, 0x90, 0xF0, 0x90, 0x90]) = true := by decide
/-- X6 -/
theorem test_font_addr_255 : runsTo (run1 (withRegs [(0, 255)]) 0xF029) (fun t => t.i == 1275) = true := by decide
/-- X7 -/
theorem test_bcd :
    runsTo (run1 { withRegs [(0, 157)] with i := 0x300 } 0xF033)
      (fun t => t.mem.readBytes 0x300 3 == [1, 5, 7] && t.i == 0x300) = true := by decide
/-- X12 -/
theorem test_bcd_bounds :
    faultsWith (run1 { withRegs [(0, 157)] with i := 4094 } 0xF033) ⟨.bounds, 0x200, some 0xF033, some 4096, none⟩ = true := by
  decide
/-- R164's example. -/
theorem test_store_regs :
    runsTo (run1 { withRegs [(0, 1), (1, 2), (2, 3)] with i := 0x300 } 0xF155)
      (fun t => t.mem.readBytes 0x300 3 == [1, 2, 0] && t.i == 0x300) = true := by decide
/-- X14 -/
theorem test_store_regs_bounds :
    faultsWith (run1 { State.reset with i := 4081 } 0xFF55) ⟨.bounds, 0x200, some 0xFF55, some 4096, none⟩ = true := by
  decide
/-- X17: the key cells of this tick, which began with no key pressed. -/
theorem test_load_regs_keys :
    runsTo (run1 { withInput State.reset [0, 2] 0 with i := 337 } 0xF265)
      (fun t => t.reg 0 == 1 && t.reg 1 == 0 && t.reg 2 == 1) = true := by decide
/-- X16 -/
theorem test_load_regs_bounds :
    faultsWith (run1 { State.reset with i := 4095 } 0xF165) ⟨.bounds, 0x200, some 0xF165, some 4096, none⟩ = true := by
  decide

/-! ### Key and timer family -/

/-- T1 -/
theorem test_skip_key_down :
    runsTo (run1 (withInput (withRegs [(2, 5)]) [5] 0) 0xE29E) (fun t => t.pc == 0x204) = true := by decide
/-- T2 -/
theorem test_skip_key_down_not : runsTo (run1 (withRegs [(2, 5)]) 0xE29E) (fun t => t.pc == 0x202) = true := by decide
/-- T3 -/
theorem test_skip_key_up : runsTo (run1 (withRegs [(2, 5)]) 0xE2A1) (fun t => t.pc == 0x204) = true := by decide
/-- T4 -/
theorem test_skip_key_up_index :
    faultsWith (run1 (withRegs [(2, 16)]) 0xE2A1) ⟨.keyIndex, 0x200, some 0xE2A1, none, some 16⟩ = true := by decide
/-- T7 -/
theorem test_read_delay :
    runsTo (run1 { State.reset with dt := 2 } 0xF407) (fun t => t.reg 4 == 2 && t.dt == 1) = true := by decide
/-- T8 -/
theorem test_read_delay_zero : runsTo (run1 State.reset 0xF407) (fun t => t.reg 4 == 0 && t.dt == 0) = true := by decide
/-- P4, tick 3. -/
theorem test_await_key :
    runsTo (run1 { State.reset with dt := 4 } 0xF50A)
      (fun t => t.pc == 0x202 && t.dt == 3 && t.mem.read 360 == 1 && t.mem.read 361 == 5) = true := by decide
/-- T10: keys 3 and 7 pressed; P4, tick 5: no timer step, PC stays. -/
theorem test_await_key_resolves :
    runsTo (step (withInput { withBytes State.reset 360 [1, 5] with dt := 3 } [3, 7] 0))
      (fun t => t.reg 5 == 3 && t.mem.read 360 == 0 && t.mem.read 361 == 5 && t.dt == 3 && t.pc == 0x200) = true := by decide
/-- T5 -/
theorem test_write_delay : runsTo (run1 (withRegs [(3, 3)]) 0xF315) (fun t => t.dt == 2) = true := by decide
/-- T6 -/
theorem test_write_sound :
    runsTo (run1 (withRegs [(3, 1)]) 0xF318) (fun t => t.st == 0 && !t.expose.soundOn) = true := by decide

/-! ### Display family -/

/-- R112's example, and D16: the key region and the wait cells are not touched. -/
theorem test_clear_screen :
    runsTo (run1 (withBytes (withBytes State.reset 80 [0xF0]) 361 [7]) 0x00E0)
      (fun t => t.mem.read 80 == 0 && t.mem.read 335 == 0 && t.mem.read 361 == 7) = true := by decide +kernel
/-- D5: the start column is 70 mod 64 = 6. -/
theorem test_draw_column :
    runsTo (run1 { withBytes (withRegs [(0, 70)]) 0x300 [0xFF] with i := 0x300 } 0xD011)
      (fun t => t.mem.readBytes 80 2 == [0x03, 0xFC] && t.reg 15 == 0) = true := by decide
/-- D15: row 1 is read after row 0 is written. -/
theorem test_draw_overlapping :
    runsTo (run1 { withBytes (withRegs [(0, 4), (1, 1)]) 88 [0xFF, 0x0F] with i := 88 } 0xD012)
      (fun t => t.mem.readBytes 88 2 == [0xF0, 0xFF] && t.mem.readBytes 96 2 == [0x0F, 0xF0] && t.reg 15 == 1) = true := by
  decide

/-! ### The tick and the faults -/

/-- F1 -/
theorem test_fetch_last_word :
    runsTo (run1 { State.reset with pc := 4094 } 0x6042) (fun t => t.reg 0 == 0x42 && t.pc == 0x1000) = true := by decide
/-- F2, F3 -/
theorem test_fetch_bounds :
    faultsWith (step { State.reset with pc := 4096 }) ⟨.bounds, 4096, none, some 4096, none⟩ = true ∧
    faultsWith (step { State.reset with pc := 4095 }) ⟨.bounds, 4095, none, some 4096, none⟩ = true := by decide
/-- P6, tick 1 under each policy: the empty ROM's 0x0000. -/
theorem test_unknown_opcode :
    runsTo (step State.reset) (fun t => t.pc == 0x202 && t.unk) = true ∧
    answers (step { State.reset with policy := .fault }) (fun t =>
      decide (t.run = .faulted ⟨.unknownOpcode, 0x200, some 0x0000, none, none⟩) && t.pc == 0x200 && !t.unk) = true := by
  decide
/-- T9, its last tick. -/
theorem test_wait_target :
    answers (step (withInput (withBytes State.reset 360 [1, 20]) [1] 0)) (fun t =>
      decide (t.run = .faulted ⟨.waitTarget, 0x200, none, none, some 20⟩) && t.mem.read 360 == 1 &&
      t.regs == State.reset.regs) = true := by decide
/-- R103: a tick of a Faulted machine, with an input that a Running one would have stored. -/
theorem test_faulted_tick :
    answers (step (withInput { State.reset with run := .faulted ⟨.bounds, 512, none, some 4096, none⟩ } [1] 0))
      (fun t => t.mem.read 338 == 0 && t.pc == 512) = true := by decide
/-- R230: the ROM at 512, the font at 0, PC at 512. -/
theorem test_construct :
    runsTo (construct referenceParams [0x60, 0x05] [])
      (fun t => t.mem.readBytes 512 3 == [0x60, 0x05, 0] && t.mem.readBytes 0 5 == [0xF0, 0x90, 0x90, 0x90, 0xF0] &&
        t.pc == 512) = true := by decide +kernel
/-- R200: the codes. -/
theorem test_fault_codes :
    [FaultCause.bounds, .stackOverflow, .stackUnderflow, .keyIndex, .waitTarget, .unknownOpcode].map FaultCause.code =
      [1, 2, 3, 4, 5, 6] := by decide
/-- R110: the most significant bit of byte 80 + 8·py + px div 8 is its leftmost pixel. -/
theorem test_pixel :
    (withBytes State.reset 89 [0x80]).pixel 8 1 = true ∧ (withBytes State.reset 89 [0x80]).pixel 9 1 = false := by decide
/-- The model's memory is canonical: storing back what an unlisted address reads as unlists it (R50). -/
theorem test_memory_canonical :
    Memory.write (Memory.write [] 600 7) 600 0 = [] ∧ Memory.write [] 1 0x90 = [] ∧
    Memory.write (Memory.write [] 700 1) 600 2 = [(600, 2), (700, 1)] := by decide

/-! ### Witnesses: data that meet the hypotheses of the obligations, clause by clause, at the edges of their ranges.
An obligation that is not named here has no hypothesis. -/

/-- `Encodes` in every statement about an instruction: each row is met by its word with every operand bit 0 and by its
word with every operand bit 1. -/
theorem witness_Encodes :
    ∀ r ∈ opcodeTable, r.pattern &&& r.mask = r.pattern ∧ (r.pattern ||| ~~~r.mask) &&& r.mask = r.pattern := by
  decide

theorem witness_EncodeOfDecodeIsWord :
    decodeWord 0x00E0 = some .clearScreen ∧ decodeWord 0xFF65 = some (.loadRegs 15) := by decide

/-- One word of each clause, and a neighbour of each clause that is recognized. -/
theorem witness_UnknownWordsAreExactly :
    [0x0000, 0x00E1, 0x0FFF, 0x5001, 0x5FFF, 0x8008, 0x8FFF, 0x9001, 0xE09F, 0xEF00, 0xF008, 0xFFFF].all
      (fun w => (decodeWord w).isNone) = true ∧
    [0x00E0, 0x00EE, 0x1000, 0x5FF0, 0x6000, 0x8FF7, 0x8FFE, 0x9FF0, 0xEF9E, 0xEFA1, 0xFF65].all
      (fun w => (decodeWord w).isSome) = true := by decide

theorem witness_OpcodeRowOrderIsImmaterial :
    (∃ r ∈ opcodeTable, (0x8126#16 : Word) &&& r.mask = r.pattern) ∧ opcodeTable.reverse.Perm opcodeTable :=
  ⟨⟨⟨0xF00F, 0x8006, fun w => .shiftRight (fieldX w) (fieldY w)⟩,
    List.mem_append_left _ (List.mem_append_right _ (by simp [rowsRegReg])), by decide⟩, List.reverse_perm _⟩

/-- The register clauses of AddCarryWritesSumThenCarry, SubBorrowWritesFlagThenDifference, ShiftRightStoresShiftedValue,
SubBorrowRevWritesRy, ShiftLeftStoresShiftedValue (one of the operands is R15 or is not) and of LoadRegs and StoreRegs
(a register up to x). -/
theorem witness_register_clauses :
    (14 : Reg) ≠ 15 ∧ (15 : Reg) = 15 ∧ (0 : Reg) ≤ 0 ∧ (15 : Reg) ≤ 15 ∧ (1 : Reg) ∉ [(0 : Reg), 15] := by decide

/-- The frame's addresses: below and above what is stored. -/
theorem witness_MemKeptOutside : (79 < 80 ∨ 80 + 256 ≤ 79) ∧ (336 < 80 ∨ 80 + 256 ≤ 336) := by decide

/-- A state with the stack pointer `n`. -/
def atSp (n : Byte) : State := { State.reset with sp := n }

theorem witness_ReturnPopsOrUnderflows :
    (atSp 0).sp = 0 ∧ ((atSp 1).sp.toNat = (1 : Fin 16).val ∧ 1 ≤ (1 : Fin 16).val) ∧
    ((atSp 15).sp.toNat = (15 : Fin 16).val ∧ 1 ≤ (15 : Fin 16).val) := by decide

theorem witness_ReturnAboveStackStops : 15 < (atSp 16).sp.toNat ∧ 15 < (atSp 255).sp.toNat := by decide

theorem witness_CallPushesOrOverflows :
    15 ≤ (atSp 15).sp.toNat ∧ (atSp 14).sp.toNat < 15 ∧ (atSp 0).sp.toNat < 15 := by decide

theorem witness_CallThenReturnResumesAfterCall :
    (atSp 14).sp.toNat < 15 ∧ ∃ u : State, u.sp = (atSp 15).sp ∧ u.stack = (atSp 15).stack := ⟨by decide, atSp 15, rfl, rfl⟩

/-- A state with the index register `n`. -/
def atIndex (n : Word) : State := { State.reset with i := n }

theorem witness_BcdStoresDigitsOrFaults :
    4096 ≤ (atIndex 4094).i.toNat + 2 ∧ (atIndex 4093).i.toNat + 2 < 4096 := by decide

theorem witness_StoreRegsStoresOrFaults :
    4096 ≤ (atIndex 4081).i.toNat + (15 : Reg).val ∧ (atIndex 4080).i.toNat + (15 : Reg).val < 4096 ∧
    4096 ≤ (atIndex 4096).i.toNat + (0 : Reg).val ∧ (atIndex 4095).i.toNat + (0 : Reg).val < 4096 := by decide

theorem witness_LoadRegsLoadsOrFaults :
    4096 ≤ (atIndex 0xFFFF).i.toNat + (0 : Reg).val ∧ (atIndex 4095).i.toNat + (0 : Reg).val < 4096 := by decide

theorem witness_SkipOnKeyOrFaults :
    16 ≤ ((withRegs [(2, 16)]).reg 2).toNat ∧ ((withRegs [(2, 15)]).reg 2).toNat < 16 := by decide

theorem witness_ClearScreenZerosFramebuffer : (80 ≤ 80 ∧ 80 < 336) ∧ (80 ≤ 335 ∧ 335 < 336) := by decide

theorem witness_RowValueRoundTrip : (31 < 32 ∧ 63 < 64 ∧ 7 < 8) ∧ (79 < 80 + 8 * 0 ∨ 80 + 8 * 0 + 8 ≤ 79) := by decide

theorem witness_DrawSpriteRowByRow :
    ((1 : Nibble).toNat ≠ 0 ∧ 4096 < (atIndex 4096).i.toNat + (1 : Nibble).toNat) ∧
    ((0 : Nibble).toNat = 0 ∨ (atIndex 0xFFFF).i.toNat + (0 : Nibble).toNat ≤ 4096) ∧
    ((15 : Nibble).toNat = 0 ∨ (atIndex 4081).i.toNat + (15 : Nibble).toNat ≤ 4096) := by decide

/-- Sprite data that begins past the framebuffer lies outside every row. -/
theorem outside_of_index {n : Word} (h : 336 ≤ n.toNat) (y : Reg) (k : Nat) : SpriteOutsideRows (atIndex n) y k := by
  intro i _ j _
  have hr := spriteRow_lt ((atIndex n).reg y) j
  have ha : (atIndex n).i = n := rfl
  refine .inr ?_
  rw [ha, rowAddr, Config.fbBase]
  omega

theorem witness_DrawSpriteTogglesPixels :
    (atIndex 4081).i.toNat + (15 : Nibble).toNat ≤ 4096 ∧ SpriteOutsideRows (atIndex 4081) 1 (15 : Nibble).toNat :=
  ⟨by decide, outside_of_index (by decide) _ _⟩

theorem witness_DrawTwiceRestoresFramebuffer :
    (0 : Reg) ≠ 15 ∧ (1 : Reg) ≠ 15 ∧ (atIndex 0x300).i.toNat + (15 : Nibble).toNat ≤ 4096 ∧
    SpriteOutsideRows (atIndex 0x300) 1 (15 : Nibble).toNat :=
  ⟨by decide, by decide, by decide, outside_of_index (by decide) _ _⟩

/-- A running machine whose next word is `w`. -/
def facing (w : Nat) : State := State.reset.withFetchWord 16 w

theorem witness_StepRunsDecodedInstruction :
    (facing 0x1234).run = .running ∧ (facing 0x1234).mem.read 360 = 0 ∧ (facing 0x1234).pc.toNat + 2 ≤ 4096 ∧
    decode [refreshed (facing 0x1234) (facing 0x1234).pc.toNat, refreshed (facing 0x1234) ((facing 0x1234).pc.toNat + 1)] =
      .instr (.jump 0x234) [] := by decide

theorem witness_PlacedWordIsExecuted : decodeWord 0x00EE = some .ret := by decide

theorem witness_InputRefreshWritesKeyCells : State.reset.run = .running := by decide

/-- A machine after reset with the program counter `n`. -/
def atPc (n : Word) : State := { State.reset with pc := n }

/-- The two lowest program counters whose fetch faults, and the highest. -/
theorem witness_FetchPastMemoryFaults :
    (atPc 4095).run = .running ∧ (atPc 4095).mem.read 360 = 0 ∧ 4096 ≤ (atPc 4095).pc.toNat + 1 ∧
    4096 ≤ (atPc 4096).pc.toNat + 1 ∧ 4096 ≤ (atPc 0xFFFF).pc.toNat + 1 := by
  decide

/-- Under each policy; and the last word of memory. -/
theorem witness_UnknownOpcodeFollowsPolicy :
    ∀ s ∈ [facing 0x5121, ({ facing 0x5121 with policy := .fault } : State), atPc 4094],
      s.run = .running ∧ s.mem.read 360 = 0 ∧ s.pc.toNat + 2 ≤ 4096 ∧ decodeWord (fetched s) = none := by decide

theorem witness_TimersCountCompletedInstructions :
    (facing 0x1234).run = .running ∧ (facing 0x1234).mem.read 360 = 0 ∧ (facing 0x1234).pc.toNat + 2 ≤ 4096 ∧
    decodeWord (fetched (facing 0x1234)) = some (.jump 0x234) ∧
    ∃ u, exec (.jump 0x234) (facing 0x1234).inputRefresh.advancePc = .next u ∧ u.run = .running :=
  ⟨by decide, by decide, by decide, by decide, _, rfl, rfl⟩

theorem witness_SoundOutputAfterWriteSound :
    (facing 0xF318).run = .running ∧ (facing 0xF318).mem.read 360 = 0 ∧ (facing 0xF318).pc.toNat + 2 ≤ 4096 ∧
    decodeWord (fetched (facing 0xF318)) = some (.writeSound 3) := by decide

/-- A machine that waits for a key into the register named by `target`, with the keys of its next tick. -/
def waiting (target : Byte) (pressed : List Nat) : State := withInput (withBytes State.reset 360 [1, target]) pressed 0

/-- No key; the lowest of two keys, into R15; and a target of 16. -/
theorem witness_WaitingTickResolvesLowestKey :
    ((waiting 15 []).run = .running ∧ (waiting 15 []).mem.read 360 ≠ 0 ∧
      ∀ k : Fin 16, (waiting 15 []).input.keys[k] = false) ∧
    ((waiting 15 [3, 7]).run = .running ∧ (waiting 15 [3, 7]).mem.read 360 ≠ 0 ∧ LowestPressed (waiting 15 [3, 7]) 3 ∧
      ((waiting 15 [3, 7]).mem.read 361).toNat = (15 : Reg).val) ∧
    ((waiting 16 [15]).run = .running ∧ (waiting 16 [15]).mem.read 360 ≠ 0 ∧ LowestPressed (waiting 16 [15]) 15 ∧
      16 ≤ ((waiting 16 [15]).mem.read 361).toNat) := by
  unfold LowestPressed
  decide

/-- The snapshot with exactly the keys `pressed`. -/
def snapshot (pressed : List Nat) : TickInput := ⟨Vector.ofFn fun k => pressed.contains k.val, 0⟩

theorem witness_AwaitKeyResolvesOnNextTick :
    let s : State := { facing 0xF50A with inputs := [snapshot [], snapshot [3, 7]] }
    s.run = .running ∧ s.mem.read 360 = 0 ∧ s.pc.toNat + 2 ≤ 4096 ∧ s.inputs = snapshot [] :: snapshot [3, 7] :: [] ∧
    decodeWord (fetched s) = some (.awaitKey 5) ∧ (snapshot [3, 7]).keys[(3 : Fin 16)] = true ∧
    ∀ j : Fin 16, j < 3 → (snapshot [3, 7]).keys[j] = false := by decide

theorem witness_FaultedTickChangesNothing :
    ∃ (s : State) (r : FaultRecord), s.run = .faulted r :=
  ⟨{ State.reset with run := .faulted ⟨.stackUnderflow, 0x200, some 0x00EE, none, none⟩ }, _, rfl⟩

/-- A tick that runs another instruction, one that waits, one whose fetch faults, one of a Faulted machine. -/
theorem witness_OnlyRandAndSeesRandomByte :
    (∀ x kk, decodeWord (fetched { facing 0x1234 with inputs := snapshot [] :: (facing 0x1234).inputs }) ≠
      some (.randAnd x kk)) ∧
    (waiting 5 []).mem.read 360 ≠ 0 ∧ ¬ (atPc 4095).pc.toNat + 2 ≤ 4096 ∧
    ({ State.reset with run := .faulted ⟨.bounds, 512, none, some 4096, none⟩ } : State).run ≠ .running := by
  have h : decodeWord (fetched { facing 0x1234 with inputs := snapshot [] :: (facing 0x1234).inputs }) =
      some (.jump 0x234) := by decide
  rw [h]
  exact ⟨fun _ _ => by simp, by decide, by decide, by decide⟩

/-- For FaultsArePrecise and EveryFaultHasItsCause: one step from a running machine into each cause. -/
theorem witness_faults :
    ∀ p ∈ [(({ State.reset with pc := 4095 } : State), FaultCause.bounds),
        ({ facing 0xD013 with i := 4094 }, .bounds), ({ facing 0x2200 with sp := 15 }, .stackOverflow),
        (facing 0x00EE, .stackUnderflow), ((withRegs [(2, 16)]).withFetchWord 16 0xE29E, .keyIndex),
        (waiting 16 [0], .waitTarget), ({ facing 0x5121 with policy := .fault }, .unknownOpcode)],
      p.1.run = .running ∧ answers (step p.1) (fun t => match t.run with
        | .faulted r => r.cause == p.2
        | .running => false) = true := by decide

theorem witness_StepAlwaysAnswers : (atSp 0).sp.toNat ≤ 15 ∧ (atSp 15).sp.toNat ≤ 15 := by decide

/-- For RegisterAccessTable and MemoryAccessTable: an instruction that answers a next state, a register, an address and
the other state it does not write. -/
theorem witness_access_tables :
    (∃ t, exec (.loadImm 3 7) State.reset = .next t ∧ State.reset.run = .running ∧ t.run = .running) ∧
    ¬ mayWriteReg (.loadImm 3 7) 2 ∧ ¬ writesIndex (.loadImm 3 7) ∧ ¬ writesStack (.loadImm 3 7) ∧
    ¬ writesDelay (.loadImm 3 7) ∧ ¬ writesSound (.loadImm 3 7) ∧ ¬ writesPc (.loadImm 3 7) ∧
    ¬ mayStore (.storeRegs 1) (atIndex 0x300) 0x302 :=
  ⟨⟨_, rfl, rfl, rfl⟩, by unfold mayWriteReg; decide, fun h => h, fun h => h, fun h => h, fun h => h, fun h => h, by
    unfold mayStore; decide⟩

/-- UNK already set, and UNK being set. -/
theorem witness_UnkIsSticky :
    answers (step { facing 0x1234 with unk := true }) (fun t => t.unk) = true ∧
    (facing 0x0000).unk = false ∧ answers (step (facing 0x0000)) (fun t => t.unk) = true := by decide

/-- Two canonical memories that differ in the key cells only. -/
theorem witness_OldKeyCellsAreNeverObserved :
    let m : Memory := [(337, 5), (352, 1)]
    State.reset.run = .running ∧ State.reset.mem.wf ∧ m.wf ∧ m ≠ State.reset.mem ∧
    ∀ a, (a < 337 ∨ 353 ≤ a) → m.read a = State.reset.mem.read a := by
  refine ⟨by decide, by decide, by decide, by decide, fun a ha => ?_⟩
  rw [Memory.read_cons, Memory.read_cons, if_neg (by omega), if_neg (by omega)]
  rfl

theorem witness_MemoryStoreLaw :
    Memory.wf [(4095, 1)] ∧ 4095 < 4096 ∧ 4096 ≤ 4096 ∧
    ∀ a < 4096, Memory.read [(4095, 1)] a = Memory.read (Memory.write [] 4095 1) a :=
  ⟨by decide, by decide, by decide, fun _ _ => rfl⟩

/-- A ROM of 3584 bytes, one of 3585, and the addresses of each clause. -/
theorem witness_ConstructionResult :
    (List.replicate 3584 (0 : Byte)).length ≤ 3584 ∧ 3584 < (List.replicate 3585 (0 : Byte)).length ∧
    79 < 80 ∧ 3583 < (List.replicate 3584 (0 : Byte)).length ∧ (80 ≤ 80 ∧ (511 < 512 ∨ 512 + 0 ≤ 511)) := by
  simp only [List.length_replicate]
  decide

theorem witness_ConstructedMachineMeetsInvariant :
    ∃ t, construct referenceParams [0x60, 0x05] [] = .next t := ⟨_, rfl⟩

/-- A state that meets the invariant and is not the reset state steps to a next state. -/
theorem witness_StepKeepsInvariant :
    (facing 0x2210).Inv ∧ ∃ t, step (facing 0x2210) = .next t := by
  refine ⟨⟨by decide, by decide, by decide, by decide, fun r h => ?_⟩, ?_⟩
  · cases h
  · exact ⟨_, rfl⟩

end Sys2Proof.Tests
end

/-! SUPPORT. What an instruction that answers a next state does to that state, said once (`exec_effect`), which operations
keep the invariant, and the obligations of 10_state.md that are read off them. -/

namespace Sys2Proof.Machine

open State

/-! ### The effect of an instruction -/

theorem reg_setReg_of_ne (s : State) {r q : Reg} (h : q ≠ r) (v : Byte) : (s.setReg r v).reg q = s.reg q := by
  rw [reg_setReg, if_neg h]

theorem ne_of_mayWriteReg {i : Instr} {x r : Reg} (hx : mayWriteReg i x) (hr : ¬ mayWriteReg i r) : r ≠ x :=
  fun h => hr (h ▸ hx)

/-- Everything an instruction can do to the state it executes in. -/
inductive ExecEffect (i : Instr) (s : State) : State → Prop where
  /-- its fault, and nothing else (R204) -/
  | fault {c : FaultCause} {a : Option Nat} {v : Option Byte} (hf : ExecFault i s c a v) :
      ExecEffect i s (s.raiseExec (encode i) c a v)
  /-- stores and register writes; the registers are those of its row in R22 -/
  | data (m : Memory) (rs : Vector Byte 16) (hm : s.mem.wf → m.wf)
      (hrs : ∀ r : Reg, ¬ mayWriteReg i r → rs[r] = s.reg r) : ExecEffect i s { s with mem := m, regs := rs }
  /-- a write of I -/
  | index (v : Word) (hi : writesIndex i) : ExecEffect i s (s.setI v)
  /-- a write of DT -/
  | delay (v : Byte) (hi : writesDelay i) : ExecEffect i s (s.setDt v)
  /-- a write of ST -/
  | sound (v : Byte) (hi : writesSound i) : ExecEffect i s (s.setSt v)
  /-- a jump, at most to 255 + 4095 (R24, R128) -/
  | jump (v : Word) (hi : writesPc i) (hv : v.toNat ≤ 4350) : ExecEffect i s (s.setPc v)
  /-- a test, and the skip if it holds -/
  | skip (c : Bool) (hi : writesPc i) : ExecEffect i s (s.skipIf c)
  /-- a call with room on the stack -/
  | call (nnn : Addr12) (hi : i = .call nnn) (hsp : s.sp.toNat < 15) :
      ExecEffect i s ((s.push s.pc).setPc (extendAddr nnn))
  /-- a return to an occupied entry -/
  | ret (hi : i = .ret) (h0 : s.sp ≠ 0) (hsp : s.sp.toNat < 16) :
      ExecEffect i s { s with pc := s.stack[s.sp.toNat], sp := s.sp - 1 }

namespace ExecEffect

variable {i : Instr} {s : State}

theorem store {m : Memory} (hm : s.mem.wf → m.wf) : ExecEffect i s (s.setMem m) :=
  .data m s.regs hm fun _ _ => rfl

theorem setReg {x : Reg} {v : Byte} (hx : mayWriteReg i x) : ExecEffect i s (s.setReg x v) :=
  .data s.mem _ id fun _ hr => reg_setReg_of_ne s (ne_of_mayWriteReg hx hr) v

/-- Two writes in a row: those of the instructions that set a flag. -/
theorem setReg_setReg {x y : Reg} {v w : Byte} (hx : mayWriteReg i x) (hy : mayWriteReg i y) :
    ExecEffect i s ((s.setReg x v).setReg y w) :=
  .data s.mem _ id fun _ hr =>
    (reg_setReg_of_ne _ (ne_of_mayWriteReg hy hr) w).trans (reg_setReg_of_ne s (ne_of_mayWriteReg hx hr) v)

theorem withIndexSpan {n : Nat} {f : Nat → State} (hn : indexSpan i = some n) (hf : ∀ b, ExecEffect i s (f b)) :
    ExecEffect i s (s.withIndexSpan (encode i) n f) := by
  rcases withIndexSpan_cases s (encode i) n f with ⟨_, he⟩ | ⟨h0, hb, he⟩
  · exact he ▸ hf _
  · exact he ▸ .fault (.bounds n hn h0 hb)

theorem withKey {x : Reg} {f : Nat → State} (hi : i = .skipKeyDown x ∨ i = .skipKeyUp x)
    (hf : ∀ k, ExecEffect i s (f k)) : ExecEffect i s (s.withKey (encode i) (s.reg x) f) := by
  rcases withKey_cases s (encode i) (s.reg x) f with ⟨_, he⟩ | ⟨hk, he⟩
  · exact he ▸ hf _
  · exact he ▸ .fault (.key x hi hk)

end ExecEffect

theorem extendAddr_toNat_le (nnn : Addr12) : (extendAddr nnn).toNat ≤ 4095 := by
  simp only [extendAddr, BitVec.toNat_setWidth]; omega

theorem offsetTarget_toNat_le (r0 : Byte) (nnn : Addr12) : (offsetTarget r0 nnn).toNat ≤ 4350 := by
  simp only [offsetTarget, extendByte, extendAddr, BitVec.toNat_add, BitVec.toNat_setWidth]; omega

/-- An instruction that answers a next state has one of the effects listed. -/
theorem exec_effect {i : Instr} {s t : State} (h : exec i s = .next t) : ExecEffect i s t := by
  cases i with
  | loadImm | addImm | copy | orReg | andReg | xorReg | randAnd | readDelay => cases h; exact .setReg rfl
  | addCarry => cases h; exact .setReg_setReg (.inl rfl) (.inr rfl)
  | subBorrow | shiftRight | shiftLeft | subBorrowRev => cases h; exact .setReg_setReg (.inr rfl) (.inl rfl)
  | clearScreen =>
    simp only [exec, execClearScreen, Host.Outcome.next.injEq] at h
    exact h ▸ .store fun hm => Memory.wf_writeBytes hm _ _
  | awaitKey => cases h; exact .store fun hm => Memory.wf_write (Memory.wf_write hm _ _) _ _
  | bcd | storeRegs => cases h; exact .withIndexSpan rfl fun _ => .store fun hm => Memory.wf_writeBytes hm _ _
  | loadRegs x =>
    cases h
    exact .withIndexSpan rfl fun b => .data s.mem _ id fun r hr => (reg_loadRegsFrom s b x r).trans (if_neg hr)
  | drawSprite x y n =>
    cases h
    exact .withIndexSpan rfl fun b => .data _ _ (fun hm => wf_drawRows hm b _ _ _) fun r hr =>
      reg_setReg_of_ne s hr _
  | loadIndex | addIndex | fontAddr => cases h; exact .index _ trivial
  | writeDelay => cases h; exact .delay _ trivial
  | writeSound => cases h; exact .sound _ trivial
  | jump nnn => cases h; exact .jump _ trivial (Nat.le_trans (extendAddr_toNat_le nnn) (by decide))
  | jumpOffset nnn => cases h; exact .jump _ trivial (offsetTarget_toNat_le _ nnn)
  | skipEqImm | skipNeImm | skipEqReg | skipNeReg => cases h; exact .skip _ trivial
  | skipKeyDown => cases h; exact .withKey (.inl rfl) fun _ => .skip _ trivial
  | skipKeyUp => cases h; exact .withKey (.inr rfl) fun _ => .skip _ trivial
  | call nnn =>
    by_cases hsp : s.sp.toNat < 15
    · rw [execCall_push hsp] at h
      cases h
      exact .call nnn rfl hsp
    · rw [execCall_overflow (Nat.le_of_not_lt hsp)] at h
      cases h
      exact .fault (.overflow nnn rfl (Nat.le_of_not_lt hsp))
  | ret =>
    by_cases h0 : s.sp = 0
    · rw [execRet_underflow h0] at h
      cases h
      exact .fault (.underflow rfl h0)
    · by_cases hsp : s.sp.toNat < 16
      · rw [execRet_pop h0 hsp] at h
        cases h
        exact .ret rfl h0 hsp
      · rw [execRet_noEntry (Nat.le_of_not_lt hsp)] at h
        cases h

/-! ### What an instruction leaves unchanged (R22) -/

section Access

variable {i : Instr} {s t : State}

theorem exec_reg (h : exec i s = .next t) {r : Reg} (hr : ¬ mayWriteReg i r) : t.reg r = s.reg r := by
  cases exec_effect h with
  | data m rs _ hrs => exact hrs r hr
  | skip c => exact skipIf_reg s c r
  | _ => rfl

theorem exec_index (h : exec i s = .next t) (hi : ¬ writesIndex i) : t.i = s.i := by
  cases exec_effect h with
  | index _ hw => exact absurd hw hi
  | skip c => exact skipIf_i s c
  | _ => rfl

theorem exec_stack (h : exec i s = .next t) (hi : ¬ writesStack i) : StackKept s t := by
  cases exec_effect h with
  | call _ hc => subst hc; exact absurd trivial hi
  | ret hc => subst hc; exact absurd trivial hi
  | skip c => exact ⟨skipIf_sp s c, skipIf_stack s c⟩
  | _ => exact ⟨rfl, rfl⟩

theorem exec_delay (h : exec i s = .next t) (hi : ¬ writesDelay i) : t.dt = s.dt := by
  cases exec_effect h with
  | delay _ hw => exact absurd hw hi
  | skip c => exact skipIf_dt s c
  | _ => rfl

theorem exec_sound (h : exec i s = .next t) (hi : ¬ writesSound i) : t.st = s.st := by
  cases exec_effect h with
  | sound _ hw => exact absurd hw hi
  | skip c => exact skipIf_st s c
  | _ => rfl

/-- PC besides the advance; a fault takes the advance back, so RUN matters here. -/
theorem exec_pc (h : exec i s = .next t) (ht : t.run = .running) (hi : ¬ writesPc i) :
    t.pc = s.pc := by
  cases exec_effect h with
  | fault => cases ht
  | jump _ hw | skip _ hw => exact absurd hw hi
  | call _ hc => subst hc; exact absurd trivial hi
  | ret hc => subst hc; exact absurd trivial hi
  | _ => rfl

/-- No instruction writes UNK (R30) or the policy. -/
theorem exec_unk_policy (h : exec i s = .next t) : t.unk = s.unk ∧ t.policy = s.policy := by
  cases exec_effect h with
  | skip c => exact ⟨skipIf_unk s c, skipIf_policy s c⟩
  | _ => exact ⟨rfl, rfl⟩

end Access

/-! ### What the invariant is kept by -/

theorem unknownOpcode_nop {s : State} (h : s.policy = .nop) (w : Word) : s.unknownOpcode w = s.setUnk := by
  simp only [State.unknownOpcode, h]

theorem unknownOpcode_fault {s : State} (h : s.policy = .fault) (w : Word) :
    s.unknownOpcode w = s.raiseExec w .unknownOpcode none none := by
  simp only [State.unknownOpcode, h]

/-- The fault of an instruction has a legal record, whatever address it records as its pc. -/
theorem ExecFault.legal {i : Instr} {s : State} {c : FaultCause} {a : Option Nat} {v : Option Byte}
    (h : ExecFault i s c a v) (pc : Word) : FaultRecord.legal ⟨c, pc, some (encode i), a, v⟩ := by
  cases h with
  | bounds => exact ⟨⟨_, rfl, Nat.le_max_right _ _⟩, rfl⟩
  | overflow | underflow => exact ⟨rfl, rfl, rfl⟩
  | key x _ h16 => exact ⟨rfl, rfl, _, rfl, h16⟩

namespace State.Inv

variable {s t : State}

/-- Besides a canonical memory, the invariant speaks of SP, PC, the stack and RUN only. -/
theorem of_control_eq (h : s.Inv) (hm : t.mem.wf) (hsp : t.sp = s.sp) (hpc : t.pc = s.pc) (hst : t.stack = s.stack)
    (hr : t.run = s.run) : t.Inv where
  memWf := hm
  spLegal := hsp ▸ h.spLegal
  pcBound := hpc ▸ h.pcBound
  stackBound := by rw [hsp, hst]; exact h.stackBound
  recordLegal := by rw [hr, hpc]; exact h.recordLegal

theorem inputRefresh (h : s.Inv) : s.inputRefresh.Inv := h.of_control_eq (wf_inputRefresh h.memWf) rfl rfl rfl rfl

theorem consumeInput (h : s.Inv) : s.consumeInput.Inv :=
  h.of_control_eq (by rw [consumeInput_mem]; exact h.memWf) (consumeInput_sp s) (consumeInput_pc s)
    (consumeInput_stack s) (consumeInput_run s)

theorem timerStepIfRunning (h : s.Inv) : s.timerStepIfRunning.Inv := by
  cases hr : s.run with
  | running => rw [timerStepIfRunning_of_running hr]; exact h.of_control_eq h.memWf rfl rfl rfl rfl
  | faulted r => rw [timerStepIfRunning_of_faulted hr]; exact h

theorem setPc (h : s.Inv) (hr : s.run = .running) {v : Word} (hv : v.toNat ≤ 4350) : (s.setPc v).Inv where
  memWf := h.memWf
  spLegal := h.spLegal
  pcBound := hv
  stackBound := h.stackBound
  recordLegal r hf := by rw [setPc_run, hr] at hf; cases hf

theorem advancePc (h : s.Inv) (hr : s.run = .running) (hpc : s.pc.toNat + 2 ≤ 4350) : s.advancePc.Inv :=
  h.setPc hr (by rw [BitVec.toNat_add]; exact Nat.le_trans (Nat.mod_le _ _) hpc)

theorem raise (h : s.Inv) {r : FaultRecord} (hpc : r.pc = s.pc) (hl : r.legal) : (s.raise r).Inv where
  memWf := h.memWf
  spLegal := h.spLegal
  pcBound := by rw [raise_pc, hpc]; exact h.pcBound
  stackBound := h.stackBound
  recordLegal q hq := by cases hq; exact ⟨rfl, hl⟩

theorem push (h : s.Inv) (hsp : s.sp.toNat < 15) {v : Word} (hv : v.toNat ≤ 4096) : (s.push v).Inv := by
  have hsp' : (s.push v).sp.toNat = s.sp.toNat + 1 := by rw [push_sp]; bv_omega
  refine ⟨h.memWf, by omega, h.pcBound, fun j h1 hj => ?_, h.recordLegal⟩
  rw [push_stack, Fin.getElem_fin, Vector.getElem_setIfInBounds]
  split
  · exact hv
  · exact h.stackBound j h1 (by omega)

/-- A return from an occupied entry. -/
theorem pop (h : s.Inv) (hr : s.run = .running) (h0 : s.sp ≠ 0) (hsp : s.sp.toNat < 16) :
    State.Inv { s with pc := s.stack[s.sp.toNat], sp := s.sp - 1 } := by
  have h1 : 1 ≤ s.sp.toNat := Nat.pos_of_ne_zero fun h => h0 (BitVec.eq_of_toNat_eq h)
  have hsp' : (s.sp - 1).toNat = s.sp.toNat - 1 := BitVec.toNat_sub_of_le h1
  have htop : s.stack[s.sp.toNat].toNat ≤ 4096 := h.stackBound ⟨s.sp.toNat, hsp⟩ h1 (Nat.le_refl _)
  exact
    { memWf := h.memWf
      spLegal := by dsimp only; omega
      pcBound := by dsimp only; omega
      stackBound := fun j hj1 hj => h.stackBound j hj1 (by dsimp only at hj; omega)
      recordLegal := fun r hf => by cases hr.symm.trans hf }

/-- An instruction fetched from memory keeps the invariant; it executes with PC already advanced. -/
theorem exec (h : s.Inv) (hr : s.run = .running) (hpc : s.pc.toNat + 2 ≤ 4096) {i : Instr}
    (he : exec i s.advancePc = .next t) : t.Inv := by
  have ha : s.advancePc.Inv := h.advancePc hr (by omega)
  have hpc' : s.advancePc.pc.toNat = s.pc.toNat + 2 := by rw [advancePc_pc]; bv_omega
  cases exec_effect he with
  | fault hf => rw [raiseExec_advancePc]; exact h.raise rfl (hf.legal _)
  | data m rs hm => exact ha.of_control_eq (hm ha.memWf) rfl rfl rfl rfl
  | index | delay | sound => exact ha.of_control_eq ha.memWf rfl rfl rfl rfl
  | jump v _ hv => exact ha.setPc hr hv
  | skip c =>
    cases c with
    | false => exact ha
    | true => exact ha.advancePc hr (by omega)
  | call nnn _ hsp => exact (ha.push hsp (by omega)).setPc hr (Nat.le_trans (extendAddr_toNat_le nnn) (by decide))
  | ret _ h0 hsp => exact ha.pop hr h0 hsp

theorem unknownOpcode (h : s.Inv) (hr : s.run = .running) (hpc : s.pc.toNat + 2 ≤ 4096) {w : Word}
    (hd : decodeWord w = none) : (s.advancePc.unknownOpcode w).Inv := by
  cases hp : s.policy with
  | nop =>
    rw [unknownOpcode_nop (s := s.advancePc) hp]
    have ha := h.advancePc hr (by omega)
    exact ha.of_control_eq ha.memWf rfl rfl rfl rfl
  | fault =>
    rw [unknownOpcode_fault (s := s.advancePc) hp, raiseExec_advancePc]
    exact h.raise rfl ⟨⟨w, rfl, hd⟩, rfl, rfl⟩

/-- A step of a running machine keeps the invariant. -/
theorem stepCase (h : s.Inv) (hr : s.run = .running) (hc : StepCase s t) : t.Inv := by
  have hi := h.inputRefresh
  cases hc with
  | idle => exact hi.consumeInput
  | resolved => exact consumeInput (hi.of_control_eq (Memory.wf_write hi.memWf 360 0) rfl rfl rfl rfl)
  | badTarget _ _ _ ht => exact consumeInput (hi.raise rfl ⟨rfl, rfl, _, rfl, ht⟩)
  | fetchBounds => exact consumeInput (hi.raise rfl ⟨⟨_, rfl, Nat.le_max_right _ _⟩, rfl⟩)
  | instr i u _ hpc _ he => exact (hi.exec hr hpc he).timerStepIfRunning.consumeInput
  | unknown _ hpc hd => exact (hi.unknownOpcode hr hpc hd).timerStepIfRunning.consumeInput

end State.Inv

/-! ### UNK and the policy -/

@[simp] theorem timerStepIfRunning_unk (s : State) : s.timerStepIfRunning.unk = s.unk := by
  unfold State.timerStepIfRunning; split <;> rfl

@[simp] theorem timerStepIfRunning_policy (s : State) : s.timerStepIfRunning.policy = s.policy := by
  unfold State.timerStepIfRunning; split <;> rfl

@[simp] theorem unknownOpcode_policy (s : State) (w : Word) : (s.unknownOpcode w).policy = s.policy := by
  unfold State.unknownOpcode; split <;> rfl

/-- A step of a running machine keeps the policy, and keeps UNK unless it sets it for an unknown word under NOP. -/
theorem StepCase.unk_policy {s t : State} (hc : StepCase s t) :
    t.policy = s.policy ∧
      (t.unk = s.unk ∨ t.unk = true ∧ s.mem.read 360 = 0 ∧ decodeWord (fetched s) = none ∧ s.policy = .nop) := by
  cases hc with
  | idle | resolved | badTarget | fetchBounds => simp
  | instr i u _ _ _ he =>
    obtain ⟨hu, hp⟩ := exec_unk_policy he
    simp [hu, hp]
  | unknown hw _ hd =>
    refine ⟨by simp, ?_⟩
    cases hp : s.policy with
    | nop => rw [unknownOpcode_nop (by simpa using hp)]; exact .inr (by simp [hw, hd])
    | fault => rw [unknownOpcode_fault (by simpa using hp)]; exact .inl (by simp)

/-! ### The memory after reset -/

/-- Writing what the addresses already read as lists nothing. -/
theorem Memory.writeBytes_nil_unlisted (vs : List Byte) (a : Nat)
    (h : ∀ k (hk : k < vs.length), vs[k] = Memory.unlisted (a + k)) : Memory.writeBytes [] a vs = [] := by
  induction vs generalizing a with
  | nil => rfl
  | cons v vs ih =>
    have hv : Memory.write [] a v = [] := by
      have h0 : v = Memory.unlisted a := h 0 (by simp)
      rw [Memory.write, if_pos h0, Memory.unlist, List.filter_nil, ite_self]
    rw [Memory.writeBytes, hv]
    refine ih (a + 1) fun k hk => ?_
    rw [Nat.add_assoc, Nat.add_comm 1]
    exact h (k + 1) (Nat.succ_lt_succ hk)

theorem constructMemory_reference : constructMemory referenceParams.font [] = [] := by
  rw [constructMemory, Memory.writeBytes_nil_unlisted, Memory.writeBytes]
  intro k _
  simp [referenceParams, Memory.unlisted]

/-! ### The obligations -/

/-- Settles O59: a Faulted machine stays as it is, and a Running one does one of the things of `StepCase`. -/
theorem stepKeepsInvariant : Obligations.StepKeepsInvariant := by
  intro s t hs h
  cases hr : s.run with
  | running => exact hs.stepCase hr (step_cases hr h)
  | faulted r =>
    rw [step_faulted hr] at h
    cases h
    exact hs

/-- Settles O50 by the access lemma of each register. -/
theorem registerAccessTable : Obligations.RegisterAccessTable := fun _ _ _ h =>
  ⟨fun _ => exec_reg h, exec_index h, exec_stack h, exec_delay h, exec_sound h,
    fun _ => exec_pc h⟩

/-- Settles O52: UNK changes in the one case of `StepCase.unk_policy`. -/
theorem unkIsSticky : Obligations.UnkIsSticky := by
  intro s t h
  cases hr : s.run with
  | faulted r =>
    rw [step_faulted hr] at h
    cases h
    exact ⟨id, rfl, fun h0 h1 => absurd (h0.symm.trans h1) (by decide)⟩
  | running =>
    obtain ⟨hp, hu | ⟨hu, hset⟩⟩ := (step_cases hr h).unk_policy
    · exact ⟨fun h1 => hu.trans h1, hp, fun h0 h1 => absurd (h0.symm.trans (hu.symm.trans h1)) (by decide)⟩
    · exact ⟨fun _ => hu, hp, fun _ _ => ⟨rfl, hset⟩⟩

/-- Settles O18: the stack ends at entry 15. -/
theorem returnAboveStackStops : Obligations.ReturnAboveStackStops :=
  fun _ h => execRet_noEntry h

/-- Settles O56: the reference font is what memory reads as unlisted, so writing it lists nothing. -/
theorem resetIsReferenceConstruction : Obligations.ResetIsReferenceConstruction := by
  refine ⟨?_, rfl, rfl, rfl, rfl, rfl, rfl, by decide⟩
  have hrom : romWellFormed [] = true := rfl
  rw [construct, if_pos hrom, constructMemory_reference]
  rfl

/-- Settles O58: no byte is listed, no stack entry is occupied and RUN is Running. -/
theorem resetMeetsInvariant : Obligations.ResetMeetsInvariant where
  memWf := Memory.wf_nil
  spLegal := by decide
  pcBound := by decide
  stackBound j h1 hj := absurd hj (Nat.not_le.2 h1)
  recordLegal r hr := by cases hr

end Sys2Proof.Machine

/-! SUPPORT. Which bytes each instruction leaves as they were, said once (`exec_read`), and the obligations of
20_memory.md. -/

namespace Sys2Proof.Machine

open State

/-! ### The bytes an operation keeps -/

/-- A draw keeps every byte that lies in none of the rows it draws on. -/
theorem read_drawRows_kept (m : Memory) (base : Nat) (x y : Byte) (n : Nat) {q : Nat}
    (hq : ∀ k < n, ¬(rowAddr (spriteRow y k) ≤ q ∧ q < rowAddr (spriteRow y k) + 8)) :
    (drawRows base x y n m).1.read q = m.read q := by
  induction n with
  | zero => rfl
  | succ n ih =>
    rw [drawRows, read_drawRow _ (spriteRow_lt y n), if_neg (hq n n.lt_succ_self)]
    exact ih fun k hk => hq k (Nat.lt_succ_of_lt hk)

/-- A checked access keeps what its effect keeps while the span is within memory: the fault stores nothing (R204). -/
theorem read_withIndexSpan_kept {s : State} {n a : Nat} {f : Nat → State} (w : Word)
    (hf : n = 0 ∨ s.i.toNat + n ≤ 4096 → (f s.i.toNat).mem.read a = s.mem.read a) :
    (s.withIndexSpan w n f).mem.read a = s.mem.read a := by
  rcases withIndexSpan_cases s w n f with ⟨hin, he⟩ | ⟨_, _, he⟩
  · rw [he, hf hin]
  · rw [he]; rfl

/-- A checked store of bytes at I keeps every byte outside the span. -/
theorem read_withIndexSpan_storeBytes {s : State} {a : Nat} (w : Word) (vs : List Byte)
    (ha : ¬(s.i.toNat ≤ a ∧ a < s.i.toNat + vs.length)) :
    (s.withIndexSpan w vs.length fun base => s.storeBytes base vs).mem.read a = s.mem.read a := by
  refine read_withIndexSpan_kept w fun hin => ?_
  rcases hin with h0 | hin
  · rw [List.eq_nil_of_length_eq_zero h0]; rfl
  · exact Memory.read_writeBytes_outside vs s.mem s.i.toNat hin (by omega)

/-- A checked key test and its skip write no memory. -/
theorem withKey_skipIf_mem (s : State) (w : Word) (v : Byte) (c : Nat → Bool) :
    (s.withKey w v fun k => s.skipIf (c k)).mem = s.mem := by
  rcases withKey_cases s w v fun k => s.skipIf (c k) with ⟨_, he⟩ | ⟨_, he⟩
  · rw [he, skipIf_mem]
  · rw [he]; rfl

theorem regsUpTo_length (s : State) (x : Reg) : (s.regsUpTo x).length = x.val + 1 := by
  simp only [State.regsUpTo, List.length_take, Vector.length_toList]; omega

/-! ### What an instruction stores (R60) -/

/-- An instruction that answers a next state keeps every byte outside its row of the access table. -/
theorem exec_read {i : Instr} {s t : State} (h : exec i s = .next t) {a : Nat} (ha : ¬ mayStore i s a) :
    t.mem.read a = s.mem.read a := by
  cases i with
  | clearScreen =>
    simp only [exec, execClearScreen, Host.Outcome.next.injEq] at h
    rw [← h, storeBytes_mem, read_blank]
    exact if_neg ha
  | drawSprite x y n =>
    cases h
    exact read_withIndexSpan_kept _ fun _ =>
      read_drawRows_kept s.mem _ (s.reg x) (s.reg y) n.toNat fun k hk hrow => ha ⟨k, hk, hrow⟩
  | bcd x =>
    cases h
    exact read_withIndexSpan_storeBytes _ (bcdDigits (s.reg x)) fun hspan => ha ⟨hspan.1, Nat.le_of_lt_succ hspan.2⟩
  | storeRegs x =>
    cases h
    rw [← regsUpTo_length s x]
    refine read_withIndexSpan_storeBytes _ (s.regsUpTo x) fun hspan => ha ⟨hspan.1, ?_⟩
    rw [regsUpTo_length] at hspan
    omega
  | awaitKey x =>
    cases h
    obtain ⟨hflag, htarget⟩ := not_or.1 ha
    rw [setMem_mem, Memory.read_write _ (by decide), if_neg hflag, Memory.read_write _ (by decide), if_neg htarget]
  | loadRegs x => cases h; exact read_withIndexSpan_kept _ fun _ => rfl
  | skipKeyDown x | skipKeyUp x => cases h; rw [withKey_skipIf_mem]
  | skipEqImm | skipNeImm | skipEqReg | skipNeReg => cases h; rw [skipIf_mem]
  | call nnn =>
    by_cases hsp : s.sp.toNat < 15
    · rw [execCall_push hsp] at h
      cases h
      rfl
    · rw [execCall_overflow (Nat.le_of_not_lt hsp)] at h
      cases h
      rfl
  | ret =>
    by_cases h0 : s.sp = 0
    · rw [execRet_underflow h0] at h
      cases h
      rfl
    · by_cases hsp : s.sp.toNat < 16
      · rw [execRet_pop h0 hsp] at h
        cases h
        rfl
      · rw [execRet_noEntry (Nat.le_of_not_lt hsp)] at h
        cases h
  | jump | loadImm | addImm | copy | orReg | andReg | xorReg | addCarry | subBorrow | shiftRight
  | subBorrowRev | shiftLeft | loadIndex | jumpOffset | randAnd | readDelay | writeDelay | writeSound
  | addIndex | fontAddr => cases h; rfl

/-! ### The key cells before a tick (R58) -/

/-- The input refresh forgets what the key cells held: canonical memories that differ in them only become equal. -/
theorem inputRefresh_setMem {s : State} {m : Memory} (hs : s.mem.wf) (hm : m.wf)
    (h : ∀ a, (a < 337 ∨ 353 ≤ a) → m.read a = s.mem.read a) : (s.setMem m).inputRefresh = s.inputRefresh := by
  have hmem : (s.setMem m).inputRefresh.mem = s.inputRefresh.mem := by
    refine Memory.ext_of_read (wf_inputRefresh hm) (wf_inputRefresh hs) fun a _ => ?_
    rw [read_inputRefresh, read_inputRefresh]
    by_cases ha : 337 ≤ a ∧ a < 353
    · rw [refreshed, refreshed, dif_pos ha, dif_pos ha, setMem_input]
    · rw [refreshed_outside (by omega), refreshed_outside (by omega), setMem_mem, h a (by omega)]
  exact congrArg s.setMem hmem

/-! ### The obligations -/

/-- Settles O51 by the bytes each instruction keeps. -/
theorem memoryAccessTable : Obligations.MemoryAccessTable :=
  fun _ _ _ h _ ha => exec_read h ha

/-- Settles O53: a step of a Running machine is a function of the state after the input refresh. -/
theorem oldKeyCellsAreNeverObserved : Obligations.OldKeyCellsAreNeverObserved := by
  intro s m hr hs hm h
  calc step (s.setMem m)
      = (s.setMem m).inputRefresh.phase2.andThen consumeInput := step_running hr
    _ = s.inputRefresh.phase2.andThen consumeInput := by rw [inputRefresh_setMem hs hm h]
    _ = step s := (step_running hr).symm

/-- Settles O54 by the laws of a store and the extensionality of canonical memories. -/
theorem memoryStoreLaw : Obligations.MemoryStoreLaw :=
  ⟨fun m a v => ⟨fun hm => Memory.wf_write hm a v, fun ha b => Memory.read_write m ha v b,
      fun ha => Memory.write_out_of_range m ha v⟩,
    fun _ _ => Memory.ext_of_read⟩

end Sys2Proof.Machine

/-! SUPPORT. The decoder and the encoder as inverses of each other, the rows that select a word read off its digits, and
the obligations of 30_encoding.md. -/

namespace Sys2Proof

open Laws

/-! ### From an instruction to its word and back -/

/-- Every instruction's word selects a row that builds the instruction (R74). -/
theorem encodingRow : ∀ i : Instr, EncodingRow.Statement i
  | .clearScreen => EncodingRow.clearScreen
  | .ret => EncodingRow.ret
  | .jump nnn => EncodingRow.jump nnn
  | .call nnn => EncodingRow.call nnn
  | .skipEqImm x kk => EncodingRow.skipEqImm x kk
  | .skipNeImm x kk => EncodingRow.skipNeImm x kk
  | .skipEqReg x y => EncodingRow.skipEqReg x y
  | .loadImm x kk => EncodingRow.loadImm x kk
  | .addImm x kk => EncodingRow.addImm x kk
  | .copy x y => EncodingRow.copy x y
  | .orReg x y => EncodingRow.orReg x y
  | .andReg x y => EncodingRow.andReg x y
  | .xorReg x y => EncodingRow.xorReg x y
  | .addCarry x y => EncodingRow.addCarry x y
  | .subBorrow x y => EncodingRow.subBorrow x y
  | .shiftRight x y => EncodingRow.shiftRight x y
  | .subBorrowRev x y => EncodingRow.subBorrowRev x y
  | .shiftLeft x y => EncodingRow.shiftLeft x y
  | .skipNeReg x y => EncodingRow.skipNeReg x y
  | .loadIndex nnn => EncodingRow.loadIndex nnn
  | .jumpOffset nnn => EncodingRow.jumpOffset nnn
  | .randAnd x kk => EncodingRow.randAnd x kk
  | .drawSprite x y n => EncodingRow.drawSprite x y n
  | .skipKeyDown x => EncodingRow.skipKeyDown x
  | .skipKeyUp x => EncodingRow.skipKeyUp x
  | .readDelay x => EncodingRow.readDelay x
  | .awaitKey x => EncodingRow.awaitKey x
  | .writeDelay x => EncodingRow.writeDelay x
  | .writeSound x => EncodingRow.writeSound x
  | .addIndex x => EncodingRow.addIndex x
  | .fontAddr x => EncodingRow.fontAddr x
  | .bcd x => EncodingRow.bcd x
  | .storeRegs x => EncodingRow.storeRegs x
  | .loadRegs x => EncodingRow.loadRegs x

theorem decodeWord_encode (i : Instr) : decodeWord (encode i) = some i := by
  obtain ⟨r, hr, hsel, hbuild⟩ := encodingRow i
  rw [decodeWord_of_row hr (beq_iff_eq.1 hsel), hbuild]

theorem highByte_append_lowByte (w : Word) : w.extractLsb' 8 8 ++ w.extractLsb' 0 8 = w := by
  have h : (w.extractLsb' 8 8 ++ w.extractLsb' 0 8).toNat = w.toNat := by
    rw [toNat_append, BitVec.extractLsb'_toNat, BitVec.extractLsb'_toNat, Nat.shiftRight_eq_div_pow]
    omega
  exact BitVec.eq_of_toNat_eq h

/-- The bytes of a word, high byte first, decode as the word does (R56, R70). -/
theorem decode_wordBytes {w : Word} {i : Instr} (h : decodeWord w = some i) (rest : List Byte) :
    decode (wordBytes w ++ rest) = .instr i rest := by
  simp only [wordBytes, List.cons_append, List.nil_append, decode, highByte_append_lowByte, h]

/-! ### From a word to its instruction and back -/

/-- Encoding what the row builds from a word that selects it gives the word back. -/
def OpcodeRow.Rebuilds (r : OpcodeRow) : Prop := ∀ w : Word, r.selects w = true → encode (r.build w) = w

namespace OpcodeRow

theorem topDigit_of_selects_top {op : Nibble} {p : Word} {build : Word → Instr} {w : Word} (hp : p = formatNnn op 0)
    (h : selects ⟨0xF000, p, build⟩ w = true) : topDigit w = op := by
  have hw : formatNnn (topDigit w) 0 = formatNnn op 0 := (mask_top w).symm.trans ((beq_iff_eq.1 h).trans hp)
  rw [← topDigit_formatNnn (topDigit w) 0, hw, topDigit_formatNnn]

theorem digits_of_selects_topLast {op n : Nibble} {p : Word} {build : Word → Instr} {w : Word}
    (hp : p = formatXyn op 0 0 n) (h : selects ⟨0xF00F, p, build⟩ w = true) : topDigit w = op ∧ fieldN w = n := by
  have hw : formatXyn (topDigit w) 0 0 (fieldN w) = formatXyn op 0 0 n :=
    (mask_topLast w).symm.trans ((beq_iff_eq.1 h).trans hp)
  constructor
  · rw [← topDigit_formatXyn (topDigit w) 0 0 (fieldN w), hw, topDigit_formatXyn]
  · rw [← fieldN_formatXyn (topDigit w) 0 0 (fieldN w), hw, fieldN_formatXyn]

theorem digits_of_selects_topByte {op : Nibble} {kk : Byte} {p : Word} {build : Word → Instr} {w : Word}
    (hp : p = formatXkk op 0 kk) (h : selects ⟨0xF0FF, p, build⟩ w = true) : topDigit w = op ∧ fieldKk w = kk := by
  have hw : formatXkk (topDigit w) 0 (fieldKk w) = formatXkk op 0 kk :=
    (mask_topByte w).symm.trans ((beq_iff_eq.1 h).trans hp)
  constructor
  · rw [← topDigit_formatXkk (topDigit w) 0 (fieldKk w), hw, topDigit_formatXkk]
  · rw [← fieldKk_formatXkk (topDigit w) 0 (fieldKk w), hw, fieldKk_formatXkk]

/-! One lemma per format of R71: what a row of that format leaves out of its fields, its mask compares. -/

theorem rebuilds_exact {p : Word} {i : Instr} (hi : encode i = p) : Rebuilds ⟨0xFFFF, p, fun _ => i⟩ :=
  fun w h => hi.trans ((mask_full w).symm.trans (beq_iff_eq.1 h)).symm

theorem rebuilds_nnn {op : Nibble} {p : Word} (c : Addr12 → Instr) (hp : p = formatNnn op 0)
    (hc : ∀ nnn, encode (c nnn) = formatNnn op nnn) : Rebuilds ⟨0xF000, p, fun w => c (fieldNnn w)⟩ := by
  intro w h
  have hop := topDigit_of_selects_top hp h
  rw [hc, ← hop, word_eq_formatNnn]

theorem rebuilds_xkk {op : Nibble} {p : Word} (c : Reg → Byte → Instr) (hp : p = formatNnn op 0)
    (hc : ∀ x kk, encode (c x kk) = formatXkk op x kk) : Rebuilds ⟨0xF000, p, fun w => c (fieldX w) (fieldKk w)⟩ := by
  intro w h
  have hop := topDigit_of_selects_top hp h
  rw [hc, ← hop, word_eq_formatXkk]

theorem rebuilds_xyn {op : Nibble} {p : Word} (c : Reg → Reg → Nibble → Instr) (hp : p = formatNnn op 0)
    (hc : ∀ x y n, encode (c x y n) = formatXyn op x y n) :
    Rebuilds ⟨0xF000, p, fun w => c (fieldX w) (fieldY w) (fieldN w)⟩ := by
  intro w h
  have hop := topDigit_of_selects_top hp h
  rw [hc, ← hop, word_eq_formatXyn]

theorem rebuilds_xys {op n : Nibble} {p : Word} (c : Reg → Reg → Instr) (hp : p = formatXyn op 0 0 n)
    (hc : ∀ x y, encode (c x y) = formatXyn op x y n) : Rebuilds ⟨0xF00F, p, fun w => c (fieldX w) (fieldY w)⟩ := by
  intro w h
  obtain ⟨hop, hn⟩ := digits_of_selects_topLast hp h
  rw [hc, ← hop, ← hn, word_eq_formatXyn]

theorem rebuilds_xs8 {op : Nibble} {kk : Byte} {p : Word} (c : Reg → Instr) (hp : p = formatXkk op 0 kk)
    (hc : ∀ x, encode (c x) = formatXs8 op x kk) : Rebuilds ⟨0xF0FF, p, fun w => c (fieldX w)⟩ := by
  intro w h
  obtain ⟨hop, hkk⟩ := digits_of_selects_topByte hp h
  rw [hc, formatXs8, ← hop, ← hkk, word_eq_formatXkk]

end OpcodeRow

open OpcodeRow

theorem rowsExactAndByte_rebuild : ∀ r ∈ rowsExactAndByte, r.Rebuilds := by
  simp only [rowsExactAndByte, List.forall_mem_cons]
  exact ⟨rebuilds_exact rfl, rebuilds_exact rfl,
    rebuilds_xs8 .skipKeyDown rfl fun _ => rfl, rebuilds_xs8 .skipKeyUp rfl fun _ => rfl,
    rebuilds_xs8 .readDelay rfl fun _ => rfl, rebuilds_xs8 .awaitKey rfl fun _ => rfl,
    rebuilds_xs8 .writeDelay rfl fun _ => rfl, rebuilds_xs8 .writeSound rfl fun _ => rfl,
    rebuilds_xs8 .addIndex rfl fun _ => rfl, rebuilds_xs8 .fontAddr rfl fun _ => rfl,
    rebuilds_xs8 .bcd rfl fun _ => rfl, rebuilds_xs8 .storeRegs rfl fun _ => rfl,
    rebuilds_xs8 .loadRegs rfl fun _ => rfl, List.forall_mem_nil _⟩

theorem rowsRegReg_rebuild : ∀ r ∈ rowsRegReg, r.Rebuilds := by
  simp only [rowsRegReg, List.forall_mem_cons]
  exact ⟨rebuilds_xys .skipEqReg rfl fun _ _ => rfl, rebuilds_xys .copy rfl fun _ _ => rfl,
    rebuilds_xys .orReg rfl fun _ _ => rfl, rebuilds_xys .andReg rfl fun _ _ => rfl,
    rebuilds_xys .xorReg rfl fun _ _ => rfl, rebuilds_xys .addCarry rfl fun _ _ => rfl,
    rebuilds_xys .subBorrow rfl fun _ _ => rfl, rebuilds_xys .shiftRight rfl fun _ _ => rfl,
    rebuilds_xys .subBorrowRev rfl fun _ _ => rfl, rebuilds_xys .shiftLeft rfl fun _ _ => rfl,
    rebuilds_xys .skipNeReg rfl fun _ _ => rfl, List.forall_mem_nil _⟩

theorem rowsTopDigit_rebuild : ∀ r ∈ rowsTopDigit, r.Rebuilds := by
  simp only [rowsTopDigit, List.forall_mem_cons]
  exact ⟨rebuilds_nnn .jump rfl fun _ => rfl, rebuilds_nnn .call rfl fun _ => rfl,
    rebuilds_xkk .skipEqImm rfl fun _ _ => rfl, rebuilds_xkk .skipNeImm rfl fun _ _ => rfl,
    rebuilds_xkk .loadImm rfl fun _ _ => rfl, rebuilds_xkk .addImm rfl fun _ _ => rfl,
    rebuilds_nnn .loadIndex rfl fun _ => rfl, rebuilds_nnn .jumpOffset rfl fun _ => rfl,
    rebuilds_xkk .randAnd rfl fun _ _ => rfl, rebuilds_xyn .drawSprite rfl fun _ _ _ => rfl,
    List.forall_mem_nil _⟩

theorem opcodeTable_rebuilds {r : OpcodeRow} (hr : r ∈ opcodeTable) : r.Rebuilds := by
  rcases List.mem_append.1 hr with hr | hr
  · rcases List.mem_append.1 hr with hr | hr
    · exact rowsExactAndByte_rebuild r hr
    · exact rowsRegReg_rebuild r hr
  · exact rowsTopDigit_rebuild r hr

/-! ### The order of the rows (R75) -/

theorem OpcodeRow.apart_symm {r q : OpcodeRow} (h : r.apart q = true) : q.apart r = true := by
  rw [OpcodeRow.apart, bne_iff_ne] at h ⊢
  rw [BitVec.and_comm q.mask]
  exact h.symm

theorem eq_of_selects {r q : OpcodeRow} (hr : r ∈ opcodeTable) (hq : q ∈ opcodeTable) {w : Word}
    (hrw : r.selects w = true) (hqw : q.selects w = true) : r = q :=
  Option.some.inj ((find_row opcodeTable_apart hr hrw).symm.trans (find_row opcodeTable_apart hq hqw))

/-- Rows that are apart are found in whatever order they stand. -/
theorem find_perm {rows table : List OpcodeRow} (hperm : rows.Perm table)
    (hp : table.Pairwise fun r q => r.apart q = true) (w : Word) :
    rows.find? (·.selects w) = table.find? (·.selects w) := by
  cases hfind : table.find? (·.selects w) with
  | none =>
    rw [List.find?_eq_none] at hfind ⊢
    exact fun r hr => hfind r (hperm.mem_iff.1 hr)
  | some r =>
    have hrows : rows.Pairwise fun r q => r.apart q = true :=
      (hperm.pairwise_iff fun h => OpcodeRow.apart_symm h).2 hp
    exact find_row hrows (hperm.mem_iff.2 (List.mem_of_find?_eq_some hfind)) (by simpa using List.find?_some hfind)

/-! ### The digits that select a row -/

theorem selects_exact_iff {p w : Word} {build : Word → Instr} (hp : p.toNat < 4096) :
    OpcodeRow.selects ⟨0xFFFF#16, p, build⟩ w = true ↔ w.toNat / 4096 = 0 ∧ w = p := by
  have hmask : OpcodeRow.selects ⟨0xFFFF#16, p, build⟩ w = true ↔ w = p := by
    simp only [OpcodeRow.selects, beq_iff_eq, mask_full]
  rw [hmask]
  exact ⟨fun h => ⟨by rw [h]; omega, h⟩, And.right⟩

theorem selects_top_iff {p w : Word} {build : Word → Instr} (hp : p.toNat % 4096 = 0) :
    OpcodeRow.selects ⟨0xF000#16, p, build⟩ w = true ↔ w.toNat / 4096 = p.toNat / 4096 := by
  have hmask := beq_iff_eq.trans (mask_top_iff w p)
  exact hmask.trans (by omega)

theorem selects_topLast_iff {p w : Word} {build : Word → Instr} (hp : p.toNat % 4096 < 16) :
    OpcodeRow.selects ⟨0xF00F#16, p, build⟩ w = true ↔ w.toNat / 4096 = p.toNat / 4096 ∧ w.toNat % 16 = p.toNat % 16 := by
  have hmask := beq_iff_eq.trans (mask_topLast_iff w p)
  exact hmask.trans (by omega)

theorem selects_topByte_iff {p w : Word} {build : Word → Instr} (hp : p.toNat % 4096 < 256) :
    OpcodeRow.selects ⟨0xF0FF#16, p, build⟩ w = true ↔
      w.toNat / 4096 = p.toNat / 4096 ∧ w.toNat % 256 = p.toNat % 256 := by
  have hmask := beq_iff_eq.trans (mask_topByte_iff w p)
  exact hmask.trans (by omega)

/-- The words that an exact row or an E or F row takes. -/
theorem exists_exactAndByte_selects (w : Word) : (∃ r ∈ rowsExactAndByte, r.selects w = true) ↔
    (w.toNat / 4096 = 0 ∧ (w = 0x00E0 ∨ w = 0x00EE)) ∨
    (w.toNat / 4096 = 14 ∧ w.toNat % 256 ∈ [0x9E, 0xA1]) ∨
    (w.toNat / 4096 = 15 ∧ w.toNat % 256 ∈ [0x07, 0x0A, 0x15, 0x18, 0x1E, 0x29, 0x33, 0x55, 0x65]) := by
  simp [rowsExactAndByte, selects_exact_iff, selects_topByte_iff, and_or_left, or_assoc]

/-- The words that a register-register row takes. -/
theorem exists_regReg_selects (w : Word) : (∃ r ∈ rowsRegReg, r.selects w = true) ↔
    (w.toNat / 4096 = 5 ∧ w.toNat % 16 = 0) ∨
    (w.toNat / 4096 = 8 ∧ w.toNat % 16 ∈ [0, 1, 2, 3, 4, 5, 6, 7, 14]) ∨
    (w.toNat / 4096 = 9 ∧ w.toNat % 16 = 0) := by
  simp [rowsRegReg, selects_topLast_iff, and_or_left, or_assoc]

/-- The words that a row of the top digit alone takes. -/
theorem exists_topDigit_selects (w : Word) : (∃ r ∈ rowsTopDigit, r.selects w = true) ↔
    w.toNat / 4096 ∈ [1, 2, 3, 4, 6, 7, 10, 11, 12, 13] := by
  simp [rowsTopDigit, selects_top_iff]

/-- A word is unknown iff no row takes it. -/
theorem decodeWord_eq_none_iff (w : Word) : decodeWord w = none ↔
    ¬(∃ r ∈ rowsExactAndByte, r.selects w = true) ∧ ¬(∃ r ∈ rowsRegReg, r.selects w = true) ∧
      ¬(∃ r ∈ rowsTopDigit, r.selects w = true) := by
  simp [decodeWord, opcodeTable]

/-- The last digits that no row of the top digit 8 has. -/
theorem digit_not_function_iff {l : Nat} (hl : l < 16) :
    l ∉ [0, 1, 2, 3, 4, 5, 6, 7, 14] ↔ l ∈ [8, 9, 10, 11, 12, 13, 15] := by
  simp only [List.mem_cons, List.not_mem_nil, or_false]
  omega

/-! ### A line of assembly that names an instruction (R80, R81) -/

theorem regOfNat_val (x : Reg) : regOfNat x.val = x := Fin.ofNat_val_eq_self x

/-- A line without a label whose operands fit a form of its mnemonic assembles to the word of what it builds. -/
theorem assemble_instr {m : Mnemonic} {os : List AsmOperand} {form : List OperandKind} {vs : List Nat} {i : Instr}
    (hform : form ∈ m.forms) (hfit : operandsFit [] os form = true) (hvalues : os.mapM (AsmOperand.value []) = some vs)
    (hbuild : m.build vs = some i) : assemble [.instr m os] = some (wordBytes (encode i)) := by
  have hline : AsmLine.wellFormed [] (.instr m os) = true := List.any_eq_true.2 ⟨form, hform, hfit⟩
  have hprogram : programWellFormed [.instr m os] = true := by simp [programWellFormed, boundLabels, hline]
  have hemit : AsmLine.emit [] (.instr m os) = some (wordBytes (encode i)) := by
    simp [AsmLine.emit, hvalues, hbuild]
  simp [assemble, labelTable, hprogram, hemit]

/-! One lemma per operand list of R80. -/

section Forms

variable {m : Mnemonic}

theorem assemble_nullary {i : Instr} (hform : [] ∈ m.forms) (hbuild : m.build [] = some i) :
    assemble [.instr m []] = some (wordBytes (encode i)) :=
  assemble_instr hform rfl rfl hbuild

theorem assemble_addr12 {c : Addr12 → Instr} (hform : [.addr12] ∈ m.forms)
    (hbuild : ∀ a, m.build [a] = some (c (.ofNat 12 a))) (a : Addr12) :
    assemble [.instr m [.num a.toNat]] = some (wordBytes (encode (c a))) :=
  assemble_instr hform (by simp [operandsFit, AsmOperand.fits, a.isLt]) rfl
    ((hbuild _).trans (by rw [BitVec.ofNat_toNat, BitVec.setWidth_eq]))

theorem assemble_reg {c : Reg → Instr} (hform : [.reg] ∈ m.forms)
    (hbuild : ∀ x, m.build [x] = some (c (regOfNat x))) (x : Reg) :
    assemble [.instr m [.reg x.val]] = some (wordBytes (encode (c x))) :=
  assemble_instr hform (by simp [operandsFit, AsmOperand.fits]) rfl
    ((hbuild _).trans (by rw [regOfNat_val]))

theorem assemble_regReg {c : Reg → Reg → Instr} (hform : [.reg, .reg] ∈ m.forms)
    (hbuild : ∀ x y, m.build [x, y] = some (c (regOfNat x) (regOfNat y))) (x y : Reg) :
    assemble [.instr m [.reg x.val, .reg y.val]] = some (wordBytes (encode (c x y))) :=
  assemble_instr hform (by simp [operandsFit, AsmOperand.fits]) rfl
    ((hbuild _ _).trans (by rw [regOfNat_val, regOfNat_val]))

theorem assemble_regImm8 {c : Reg → Byte → Instr} (hform : [.reg, .imm8] ∈ m.forms)
    (hbuild : ∀ x k, m.build [x, k] = some (c (regOfNat x) (.ofNat 8 k))) (x : Reg) (k : Byte) :
    assemble [.instr m [.reg x.val, .num k.toNat]] = some (wordBytes (encode (c x k))) :=
  assemble_instr hform (by simp [operandsFit, AsmOperand.fits, k.isLt]) rfl
    ((hbuild _ _).trans (by rw [regOfNat_val, BitVec.ofNat_toNat, BitVec.setWidth_eq]))

theorem assemble_regRegImm4 {c : Reg → Reg → Nibble → Instr} (hform : [.reg, .reg, .imm4] ∈ m.forms)
    (hbuild : ∀ x y n, m.build [x, y, n] = some (c (regOfNat x) (regOfNat y) (.ofNat 4 n))) (x y : Reg) (n : Nibble) :
    assemble [.instr m [.reg x.val, .reg y.val, .num n.toNat]] = some (wordBytes (encode (c x y n))) :=
  assemble_instr hform (by simp [operandsFit, AsmOperand.fits, n.isLt]) rfl
    ((hbuild _ _ _).trans (by rw [regOfNat_val, regOfNat_val, BitVec.ofNat_toNat, BitVec.setWidth_eq]))

end Forms

/-! ### The obligations -/

/-- Settles O1 by the row that each instruction's word selects. -/
theorem decodeOfEncodeIsInstruction : Obligations.DecodeOfEncodeIsInstruction :=
  fun i rest => ⟨decodeWord_encode i, decode_wordBytes (decodeWord_encode i) rest⟩

/-- Settles O2: the row a word decodes by rebuilds the word. -/
theorem encodeOfDecodeIsWord : Obligations.EncodeOfDecodeIsWord := by
  intro w i h
  obtain ⟨r, hr, hsel, rfl⟩ := row_of_decodeWord h
  exact opcodeTable_rebuilds hr w hsel

/-- Settles O4, one top digit at a time. -/
theorem unknownWordsAreExactly : Obligations.UnknownWordsAreExactly := by
  intro w
  rw [decodeWord_eq_none_iff, exists_exactAndByte_selects, exists_regReg_selects, exists_topDigit_selects,
    ← digit_not_function_iff (Nat.mod_lt w.toNat (by decide))]
  have htop : w.toNat / 4096 < 16 := by omega
  generalize w.toNat / 4096 = top at htop
  interval_cases top <;> simp

/-- Settles O5: the row that selects a word is the one found, in whatever order the rows stand. -/
theorem opcodeRowOrderIsImmaterial : Obligations.OpcodeRowOrderIsImmaterial :=
  ⟨fun _ _ hr _ hq hrw hqw => eq_of_selects hr hq (beq_iff_eq.2 hrw) (beq_iff_eq.2 hqw),
    fun _ hperm w => congrArg (Option.map (·.build w)) (find_perm hperm opcodeTable_apart w)⟩

/-- Settles O3: each word is the encoding of its instruction. -/
theorem specWordsDecode : Obligations.SpecWordsDecode :=
  ⟨decodeWord_encode .clearScreen, decodeWord_encode .ret, decodeWord_encode (.skipEqReg 1 2),
    decodeWord_encode (.shiftLeft 1 2), decodeWord_encode (.fontAddr 1), decodeWord_encode (.drawSprite 0 0 0),
    decodeWord_encode (.loadImm 10 0x9D), decodeWord_encode (.addCarry 0 1), decodeWord_encode (.drawSprite 0 1 1),
    decodeWord_encode (.jump 0x234)⟩

/-- Settles O6 by the operand list of each instruction. -/
theorem assembledLineIsOneWord : Obligations.AssembledLineIsOneWord := by
  intro i
  cases i with
  | clearScreen | ret => exact assemble_nullary (by decide) rfl
  | jump | call | loadIndex | jumpOffset => exact assemble_addr12 (by decide) (fun _ => rfl) _
  | skipEqImm | skipNeImm | loadImm | addImm | randAnd => exact assemble_regImm8 (by decide) (fun _ _ => rfl) _ _
  | skipEqReg | copy | orReg | andReg | xorReg | addCarry | subBorrow | shiftRight | subBorrowRev | shiftLeft
  | skipNeReg => exact assemble_regReg (by decide) (fun _ _ => rfl) _ _
  | drawSprite => exact assemble_regRegImm4 (by decide) (fun _ _ _ => rfl) _ _ _
  | skipKeyDown | skipKeyUp | readDelay | awaitKey | writeDelay | writeSound | addIndex | fontAddr | bcd | storeRegs
  | loadRegs => exact assemble_reg (by decide) (fun _ => rfl) _

end Sys2Proof

/-! SUPPORT. The step of a Running machine as one equation per case of the tick, what the placed word, the wait and the
random byte come to, and the obligations of 40_cycle.md. -/

namespace Sys2Proof.Machine

open State

/-! ### The step, one equation per case -/

theorem Result.andThen_andThen (r : Result) (f g : State → State) :
    (r.andThen f).andThen g = r.andThen fun s => g (f s) := by
  cases r <;> rfl

theorem timerStepIfRunning_eq_ite (s : State) :
    s.timerStepIfRunning = if s.run = .running then s.timerStep else s := by
  cases hr : s.run with
  | running => rw [timerStepIfRunning_of_running hr, if_pos rfl]
  | faulted r => rw [timerStepIfRunning_of_faulted hr, if_neg (by simp)]

section Step

variable {s : State}

/-- A tick whose word decodes runs its instruction, then the timer step, and uses up the input (R90, R93, R95). -/
theorem step_exec {i : Instr} (hr : s.run = .running) (hw : s.mem.read 360 = 0) (hp : s.pc.toNat + 2 ≤ 4096)
    (hd : decodeWord (fetched s) = some i) :
    step s = Result.andThen (exec i s.inputRefresh.advancePc) fun u => u.timerStepIfRunning.consumeInput := by
  rw [step_cpu hr hw, cpuStep_exec (s := s.inputRefresh) hp (by rw [fetchWord_inputRefresh, hd]),
    Result.andThen_andThen]

/-- A tick whose instruction answers a next state answers one. -/
theorem step_exec_next {i : Instr} {u : State} (hr : s.run = .running) (hw : s.mem.read 360 = 0)
    (hp : s.pc.toNat + 2 ≤ 4096) (hd : decodeWord (fetched s) = some i)
    (he : exec i s.inputRefresh.advancePc = .next u) : step s = .next u.timerStepIfRunning.consumeInput := by
  rw [step_exec hr hw hp hd, he]; rfl

/-- A tick whose fetch is past memory (R94, R99): the fault is raised and no timer counts. -/
theorem step_fetchBounds (hr : s.run = .running) (hw : s.mem.read 360 = 0) (hp : 4096 < s.pc.toNat + 2) :
    step s = .next (s.inputRefresh.raise ⟨.bounds, s.pc, none, some (max s.pc.toNat 4096), none⟩).consumeInput := by
  rw [step_cpu hr hw, cpuStep_bounds (s := s.inputRefresh) hp]; rfl

/-- A tick whose word matches no row (R96). -/
theorem step_unknown (hr : s.run = .running) (hw : s.mem.read 360 = 0) (hp : s.pc.toNat + 2 ≤ 4096)
    (hd : decodeWord (fetched s) = none) :
    step s = .next (s.inputRefresh.advancePc.unknownOpcode (fetched s)).timerStepIfRunning.consumeInput := by
  rw [step_cpu hr hw, cpuStep_unknown (s := s.inputRefresh) hp (by rw [fetchWord_inputRefresh, hd]),
    fetchWord_inputRefresh]
  rfl

/-- Under NOP the step completes, so the timer step runs. -/
theorem step_unknown_nop (hr : s.run = .running) (hw : s.mem.read 360 = 0) (hp : s.pc.toNat + 2 ≤ 4096)
    (hd : decodeWord (fetched s) = none) (hpol : s.policy = .nop) :
    step s = .next s.inputRefresh.advancePc.setUnk.timerStep.consumeInput := by
  rw [step_unknown hr hw hp hd, unknownOpcode_nop (s := s.inputRefresh.advancePc) hpol,
    timerStepIfRunning_of_running (by simpa using hr)]

/-- Under FAULT the step faults, so the PC advance is undone and no timer step runs. -/
theorem step_unknown_fault (hr : s.run = .running) (hw : s.mem.read 360 = 0) (hp : s.pc.toNat + 2 ≤ 4096)
    (hd : decodeWord (fetched s) = none) (hpol : s.policy = .fault) :
    step s = .next (s.inputRefresh.raise ⟨.unknownOpcode, s.pc, some (fetched s), none, none⟩).consumeInput := by
  rw [step_unknown hr hw hp hd, unknownOpcode_fault (s := s.inputRefresh.advancePc) hpol, raiseExec_advancePc]
  rfl

end Step

/-- Two bytes that decode to an instruction form its word (R56, R70). -/
theorem decodeWord_of_decode {hi lo : Byte} {rest : List Byte} {i : Instr}
    (h : decode [hi, lo] = .instr i rest) : decodeWord (hi ++ lo) = some i := by
  cases hd : decodeWord (hi ++ lo) with
  | none => simp [decode, hd] at h
  | some j => simp only [decode, hd, Decoded.instr.injEq] at h; rw [h.1]

/-! ### The placed word (log entry 11) -/

/-- What makes an address one where the next tick fetches what is placed there. -/
theorem canHoldNextWord_iff {a : Nat} :
    canHoldNextWord a = true ↔ a + 2 ≤ 4096 ∧ ¬(336 ≤ a ∧ a ≤ 352) ∧ ¬(359 ≤ a ∧ a ≤ 360) := by
  simp only [canHoldNextWord, Config.memSize, Bool.and_eq_true, Bool.not_eq_true', decide_eq_true_eq,
    decide_eq_false_iff_not, and_assoc]

section Placed

variable (s : State) (w : Word)

/-- A word is placed only where one can be. -/
theorem withFetchWord_pc : canHoldNextWord (s.withFetchWord 16 w.toNat).pc.toNat = true := by
  simp only [State.withFetchWord]
  split
  · assumption
  · decide

theorem withFetchWord_mem : (s.withFetchWord 16 w.toNat).mem =
    (s.mem.write 360 0).writeBytes (s.withFetchWord 16 w.toNat).pc.toNat (wordBytes w) := by
  have hword : BitVec.ofNat 16 (w.toNat % 2 ^ 16) = w := by
    rw [Nat.mod_eq_of_lt w.isLt, BitVec.ofNat_toNat, BitVec.setWidth_eq]
  simp only [State.withFetchWord, hword]

/-- The tick does not wait, because the word does not lie on byte 360. -/
theorem withFetchWord_waitFlag : (s.withFetchWord 16 w.toNat).mem.read 360 = 0 := by
  obtain ⟨hp, _, hflag⟩ := canHoldNextWord_iff.1 (withFetchWord_pc s w)
  have hout : 360 < (s.withFetchWord 16 w.toNat).pc.toNat ∨ (s.withFetchWord 16 w.toNat).pc.toNat + 2 ≤ 360 := by omega
  rw [withFetchWord_mem, Memory.read_writeBytes_outside (wordBytes w) _ _ hp hout, Memory.read_write _ (by decide),
    if_pos rfl]

/-- The tick fetches the word, because the input refresh writes neither of its bytes. -/
theorem fetched_withFetchWord : fetched (s.withFetchWord 16 w.toNat) = w := by
  obtain ⟨hp, hkeys, _⟩ := canHoldNextWord_iff.1 (withFetchWord_pc s w)
  have hread := Memory.read_writeBytes (wordBytes w) (s.mem.write 360 0) _ hp
  rw [← withFetchWord_mem] at hread
  rw [fetched, refreshed_outside (by omega), refreshed_outside (by omega), hread, hread,
    if_pos (by simp [wordBytes]), if_pos (by simp [wordBytes])]
  simpa [wordBytes] using highByte_append_lowByte w

end Placed

/-! ### Waiting ticks (R100) -/

/-- Only one key is the lowest one pressed. -/
theorem LowestPressed.unique {s : State} {j k : Fin 16} (hj : LowestPressed s j) (hk : LowestPressed s k) : j = k := by
  rcases lt_trichotomy j k with h | h | h
  · exact absurd hj.1 (by simp [hk.2 j h])
  · exact h
  · exact absurd hk.1 (by simp [hj.2 k h])

theorem LowestPressed.not_idle {s : State} {k : Fin 16} (hk : LowestPressed s k) :
    ¬ ∀ j : Fin 16, s.input.keys[j] = false :=
  fun h => absurd hk.1 (by rw [h k]; decide)

/-- A waiting tick runs no instruction and no timer step, however it ends. -/
theorem StepCase.waiting_kept {s t : State} (hc : StepCase s t) (hw : s.mem.read 360 ≠ 0) :
    t.pc = s.pc ∧ t.i = s.i ∧ StackKept s t ∧ TimersKept s t ∧ t.unk = s.unk := by
  cases hc with
  | fetchBounds hw0 | instr _ _ hw0 | unknown hw0 => exact absurd hw0 hw
  | idle | resolved | badTarget => simp [StackKept, TimersKept]

theorem regIndexByte_toNat (r : Reg) : (regIndexByte r).toNat = r.val :=
  Nat.mod_eq_of_lt (Nat.lt_of_lt_of_le r.isLt (by decide))

/-! ### What a tick exposes (R102) -/

theorem framebuffer_length (s : State) : s.framebuffer.length = 256 := by
  simp [State.framebuffer, Memory.readBytes]

theorem getElem?_framebuffer (s : State) {k : Nat} (hk : k < 256) :
    s.framebuffer[k]? = some (s.mem.read (80 + k)) := by
  simp [State.framebuffer, Memory.readBytes, hk]

theorem soundOn_iff (s : State) : s.soundOn = true ↔ 0 < s.st.toNat := by
  rw [State.soundOn, bne_iff_ne, ne_eq, ← BitVec.toNat_inj, Nat.pos_iff_ne_zero]
  rfl

/-! ### The random byte (R97) -/

/-- The state with other host inputs to come. -/
def State.setInputs (s : State) (l : List TickInput) : State := { s with inputs := l }

/-- Using up the first of the inputs set leaves the others. -/
theorem consumeInput_setInputs_cons (s : State) (input : TickInput) (l : List TickInput) :
    (s.setInputs (input :: l)).consumeInput = s.setInputs l := rfl

/-- A checked access whose effect passes the host inputs on does so whether it faults or not. -/
theorem withIndexSpan_setInputs {s : State} {l : List TickInput} {w : Word} {n : Nat} {f g : Nat → State}
    (h : ∀ b, g b = (f b).setInputs l) :
    (s.setInputs l).withIndexSpan w n g = (s.withIndexSpan w n f).setInputs l := by
  rcases withIndexSpan_cases s w n f with ⟨hin, he⟩ | ⟨h0, hout, he⟩
  · rw [he, withIndexSpan_in (s := s.setInputs l) hin]; exact h _
  · rw [he, withIndexSpan_out (s := s.setInputs l) h0 hout]; rfl

theorem withKey_setInputs {s : State} {l : List TickInput} {w : Word} {v : Byte} {f g : Nat → State}
    (h : ∀ k, g k = (f k).setInputs l) :
    (s.setInputs l).withKey w v g = (s.withKey w v f).setInputs l := by
  rcases withKey_cases s w v f with ⟨hlt, he⟩ | ⟨hge, he⟩
  · rw [he, withKey_lt hlt]; exact h _
  · rw [he, withKey_ge hge]; rfl

theorem skipIf_setInputs (s : State) (l : List TickInput) (c : Bool) :
    (s.setInputs l).skipIf c = (s.skipIf c).setInputs l := by
  cases c <;> rfl

theorem storeBytes_setInputs (s : State) (l : List TickInput) (a : Nat) (vs : List Byte) :
    (s.setInputs l).storeBytes a vs = (s.storeBytes a vs).setInputs l := rfl

/-- An instruction other than `rand-and` neither reads the host inputs nor changes them. -/
theorem exec_setInputs {i : Instr} (hi : ∀ x kk, i ≠ .randAnd x kk) (s : State) (l : List TickInput) :
    exec i (s.setInputs l) = Result.andThen (exec i s) (·.setInputs l) := by
  cases i with
  | randAnd x kk => exact absurd rfl (hi x kk)
  | bcd | storeRegs | loadRegs | drawSprite =>
    exact congrArg Host.Outcome.next (withIndexSpan_setInputs fun _ => rfl)
  | skipKeyDown | skipKeyUp =>
    exact congrArg Host.Outcome.next (withKey_setInputs fun _ => skipIf_setInputs s l _)
  | skipEqImm | skipNeImm | skipEqReg | skipNeReg => exact congrArg Host.Outcome.next (skipIf_setInputs s l _)
  | call nnn =>
    by_cases hsp : s.sp.toNat < 15
    · rw [execCall_push hsp, execCall_push (s := s.setInputs l) hsp]; rfl
    · rw [execCall_overflow (Nat.le_of_not_lt hsp), execCall_overflow (s := s.setInputs l) (Nat.le_of_not_lt hsp)]; rfl
  | ret =>
    by_cases h0 : s.sp = 0
    · rw [execRet_underflow h0, execRet_underflow (s := s.setInputs l) h0]; rfl
    · by_cases hsp : s.sp.toNat < 16
      · rw [execRet_pop h0 hsp, execRet_pop (s := s.setInputs l) h0 hsp]; rfl
      · rw [execRet_noEntry (Nat.le_of_not_lt hsp), execRet_noEntry (s := s.setInputs l) (Nat.le_of_not_lt hsp)]; rfl
  | clearScreen => simp only [exec, execClearScreen, storeBytes_setInputs, Result.andThen]
  | _ => rfl

theorem unknownOpcode_setInputs (s : State) (l : List TickInput) (w : Word) :
    (s.setInputs l).unknownOpcode w = (s.unknownOpcode w).setInputs l := by
  cases hp : s.policy with
  | nop => rw [unknownOpcode_nop hp, unknownOpcode_nop (s := s.setInputs l) hp]; rfl
  | fault => rw [unknownOpcode_fault hp, unknownOpcode_fault (s := s.setInputs l) hp]; rfl

theorem timerStepIfRunning_setInputs (s : State) (l : List TickInput) :
    (s.setInputs l).timerStepIfRunning = s.timerStepIfRunning.setInputs l := by
  cases hr : s.run with
  | running => rw [timerStepIfRunning_of_running hr, timerStepIfRunning_of_running (s := s.setInputs l) hr]; rfl
  | faulted r => rw [timerStepIfRunning_of_faulted hr, timerStepIfRunning_of_faulted (s := s.setInputs l) hr]

theorem waitStep_setInputs (s : State) (l : List TickInput) (target : Byte) :
    (s.setInputs l).waitStep target = (s.waitStep target).setInputs l := by
  have hmem : (s.setInputs l).mem = s.mem := rfl
  unfold State.waitStep
  rw [hmem]
  cases s.mem.firstPressed with
  | none => rfl
  | some k => dsimp only; split <;> rfl

/-- A CPU step that runs no `rand-and` neither reads the host inputs nor changes them. -/
theorem cpuStep_setInputs {s : State}
    (h : s.pc.toNat + 2 ≤ 4096 → ∀ x kk, decodeWord s.fetchWord ≠ some (.randAnd x kk)) (l : List TickInput) :
    (s.setInputs l).cpuStep = s.cpuStep.andThen (·.setInputs l) := by
  by_cases hp : s.pc.toNat + 2 ≤ 4096
  · cases hd : decodeWord s.fetchWord with
    | none =>
      rw [cpuStep_unknown hp hd, cpuStep_unknown (s := s.setInputs l) hp hd]
      exact congrArg Host.Outcome.next (unknownOpcode_setInputs s.advancePc l _)
    | some i =>
      rw [cpuStep_exec hp hd, cpuStep_exec (s := s.setInputs l) hp hd]
      exact exec_setInputs (fun x kk hi => h hp x kk (hi ▸ hd)) s.advancePc l
  · rw [cpuStep_bounds (Nat.lt_of_not_le hp), cpuStep_bounds (s := s.setInputs l) (Nat.lt_of_not_le hp)]; rfl

/-- Phase 2 of a tick that runs no `rand-and` neither reads the host inputs nor changes them. -/
theorem phase2_setInputs {s : State}
    (h : s.waitFsm = .running → s.pc.toNat + 2 ≤ 4096 → ∀ x kk, decodeWord s.fetchWord ≠ some (.randAnd x kk))
    (l : List TickInput) : (s.setInputs l).phase2 = s.phase2.andThen (·.setInputs l) := by
  have hfsm : (s.setInputs l).waitFsm = s.waitFsm := rfl
  rw [State.phase2, State.phase2, hfsm]
  cases hw : s.waitFsm with
  | waitingForKey target => exact congrArg Host.Outcome.next (waitStep_setInputs s l target)
  | running =>
    dsimp only
    rw [cpuStep_setInputs (h hw), Result.andThen_andThen, Result.andThen_andThen]
    exact congrArg _ (funext fun u => timerStepIfRunning_setInputs u l)

theorem tickWith_faulted {s : State} {r : FaultRecord} (hr : s.run = .faulted r) (input : TickInput) :
    tickWith input s = .next s := by
  simp only [tickWith, hr]

/-- A tick with a given input is a step with that input ahead of the others. -/
theorem tickWith_running {s : State} (hr : s.run = .running) (input : TickInput) :
    tickWith input s = step (s.setInputs (input :: s.inputs)) := by
  unfold tickWith
  split
  · next hf => cases hr.symm.trans hf
  · rfl

/-- A step that runs no `rand-and`, with any input of the same keys in front, is phase 2 as it is without that input. -/
theorem step_setInputs_cons {s : State} {input : TickInput} (hr : s.run = .running) (hk : input.keys = s.input.keys)
    (h : s.mem.read 360 = 0 → s.pc.toNat + 2 ≤ 4096 → ∀ x kk, decodeWord (fetched s) ≠ some (.randAnd x kk))
    (l : List TickInput) :
    step (s.setInputs (input :: l)) = s.inputRefresh.phase2.andThen (·.setInputs l) := by
  have hrefresh : (s.setInputs (input :: l)).inputRefresh = s.inputRefresh.setInputs (input :: l) := by
    rw [State.inputRefresh, State.inputRefresh, ← hk]; rfl
  have hrand : s.inputRefresh.waitFsm = .running → s.inputRefresh.pc.toNat + 2 ≤ 4096 →
      ∀ x kk, decodeWord s.inputRefresh.fetchWord ≠ some (.randAnd x kk) := by
    intro hfsm hp
    rw [fetchWord_inputRefresh]
    refine h ?_ hp
    by_contra hw
    rw [waitFsm_waiting hw] at hfsm
    cases hfsm
  rw [step_running (s := s.setInputs (input :: l)) hr, hrefresh, phase2_setInputs hrand, Result.andThen_andThen]
  simp only [consumeInput_setInputs_cons]

/-! ### The obligations -/

/-- Settles O37: the word lies where the tick fetches it unchanged, and on no byte that makes the tick wait. -/
theorem placedWordIsExecuted : Obligations.PlacedWordIsExecuted := by
  intro s w i hd
  have hw := withFetchWord_waitFlag s w
  have hp := (canHoldNextWord_iff.1 (withFetchWord_pc s w)).1
  have hf := fetched_withFetchWord s w
  exact ⟨_, rfl, rfl, hw, hp, hf, fun _ _ => rfl, step_exec rfl hw hp (hf.symm ▸ hd)⟩

/-- Settles O38 by the law of the input refresh. -/
theorem inputRefreshWritesKeyCells : Obligations.InputRefreshWritesKeyCells := by
  refine ⟨fun s => step_running, fun s => ⟨fun k => ?_, fun a ha => ?_, ?_⟩⟩
  · have hk : 337 ≤ 337 + k.val ∧ 337 + k.val < 353 := by omega
    rw [read_inputRefresh, refreshed, dif_pos hk]
    simp
  · rw [read_inputRefresh, refreshed_outside ha]
  · exact ⟨fun _ _ => rfl, rfl, rfl, ⟨rfl, rfl⟩, ⟨rfl, rfl⟩, rfl, rfl, rfl, rfl, rfl⟩

/-- Settles O39: the greater of PC and 4096 is the first address out of range. -/
theorem fetchPastMemoryFaults : Obligations.FetchPastMemoryFaults := by
  intro s hr hw hp
  have haddr : max s.pc.toNat 4096 = if 4096 ≤ s.pc.toNat then s.pc.toNat else s.pc.toNat + 1 := by
    split <;> omega
  refine ⟨_, step_fetchBounds hr hw (by omega), ?_⟩
  simp [haddr, RegsKept, StackKept, TimersKept, ← read_inputRefresh]

/-- Settles O40, one policy at a time. -/
theorem unknownOpcodeFollowsPolicy : Obligations.UnknownOpcodeFollowsPolicy := by
  intro s hr hw hp hd
  cases hpol : s.policy with
  | nop =>
    refine ⟨_, step_unknown_nop hr hw hp hd hpol, ?_⟩
    have hpc : s.pc.toNat + 2 < 65536 := by omega
    simp [hr, hpc, countDown_toNat, RegsKept, StackKept, ← read_inputRefresh]
  | fault =>
    refine ⟨_, step_unknown_fault hr hw hp hd hpol, ?_⟩
    simp [RegsKept, StackKept, TimersKept, ← read_inputRefresh]

/-- Settles O41: the step after a completed instruction is the timer step. -/
theorem timersCountCompletedInstructions : Obligations.TimersCountCompletedInstructions := by
  intro s u i hr hw hp hd he hu
  have hcount (v : Byte) : (countDown v).toNat = if 0 < v.toNat then v.toNat - 1 else v.toNat := by
    rw [countDown_toNat]; split <;> omega
  refine ⟨_, step_exec_next hr hw hp hd he, ?_⟩
  rw [timerStepIfRunning_of_running hu]
  simp [hcount, RegsKept, MemKept, StackKept]

/-- Settles O42: the timer step runs between the write of ST and the exposure. -/
theorem soundOutputAfterWriteSound : Obligations.SoundOutputAfterWriteSound := by
  intro s x hr hw hp hd
  have hstep : step s = .next (s.inputRefresh.advancePc.setSt (s.reg x)).timerStep.consumeInput := by
    rw [← timerStepIfRunning_of_running (s := s.inputRefresh.advancePc.setSt (s.reg x)) hr]
    exact step_exec_next hr hw hp hd rfl
  have hst : (countDown (s.reg x)).toNat = (s.reg x).toNat - 1 := countDown_toNat _
  refine ⟨_, hstep, by simpa using hst, ?_, by simpa [State.expose] using hr, by simp [State.expose],
    framebuffer_length _, fun k hk => ?_⟩
  · simp only [State.expose, soundOn_iff, consumeInput_st, timerStep_st, setSt_st, hst]
    omega
  · have hread := (read_inputRefresh s (80 + k)).trans (refreshed_outside (by omega))
    simp only [State.expose, getElem?_framebuffer _ hk, ← hread]
    simp

/-- Settles O43, one case of a waiting tick at a time. -/
theorem waitingTickResolvesLowestKey : Obligations.WaitingTickResolvesLowestKey := by
  intro s hr hw
  obtain ⟨t, ht⟩ : ∃ t, step s = .next t := ⟨_, step_waiting hr hw⟩
  have hc := step_cases hr ht
  obtain ⟨hpc, hi, hstack, htimers, hunk⟩ := hc.waiting_kept hw
  refine ⟨t, ht, hpc, hi, hstack, htimers, hunk, ?_⟩
  cases hc with
  | fetchBounds hw0 | instr _ _ hw0 | unknown hw0 => exact absurd hw0 hw
  | idle _ hnone =>
    refine ⟨fun _ => ?_, fun k hk => absurd hnone hk.not_idle⟩
    simp [hr, RegsKept, ← read_inputRefresh]
  | resolved k _ hk hlt =>
    refine ⟨fun hnone => absurd hnone hk.not_idle, fun j hj => ⟨fun r htarget => ?_, fun hge => by omega⟩⟩
    obtain rfl := hj.unique hk
    obtain rfl : (⟨(s.mem.read 361).toNat, hlt⟩ : Reg) = r := Fin.ext htarget
    refine ⟨by simpa using hr, by simp [regIndexByte_toNat], fun q hq => ?_, fun a => ?_⟩
    · rw [consumeInput_reg, setMem_reg, reg_setReg_of_ne _ (by simpa using hq), inputRefresh_reg]
    · rw [consumeInput_mem, setMem_mem, Memory.read_write _ (by decide), read_inputRefresh]
  | badTarget k _ hk hge =>
    refine ⟨fun hnone => absurd hnone hk.not_idle, fun j _ => ⟨fun r htarget => by omega, fun _ => ?_⟩⟩
    simp [RegsKept, ← read_inputRefresh]

/-- Settles O46: with either byte the tick is the same phase 2. -/
theorem onlyRandAndSeesRandomByte : Obligations.OnlyRandAndSeesRandomByte := by
  intro s keys rnd rnd' h
  cases hr : s.run with
  | running =>
    have hstep (r : Byte) :=
      step_setInputs_cons (s := s.setInputs (⟨keys, rnd⟩ :: s.inputs)) (input := ⟨keys, r⟩) hr rfl (h hr) s.inputs
    rw [tickWith_running hr, tickWith_running hr]
    exact (hstep rnd).trans (hstep rnd').symm
  | faulted r => rw [tickWith_faulted hr, tickWith_faulted hr]

/-- Settles O49: a return above the stack is the only stop. -/
theorem stepAlwaysAnswers : Obligations.StepAlwaysAnswers := by
  intro s hsp
  cases hr : s.run with
  | faulted r => exact ⟨s, step_faulted hr⟩
  | running =>
    by_cases hw : s.mem.read 360 = 0
    · by_cases hp : s.pc.toNat + 2 ≤ 4096
      · cases hd : decodeWord (fetched s) with
        | none => exact ⟨_, step_unknown hr hw hp hd⟩
        | some i =>
          obtain ⟨u, hu⟩ := exec_answers (i := i) (s := s.inputRefresh.advancePc) hsp
          exact ⟨_, step_exec_next hr hw hp hd hu⟩
      · exact ⟨_, step_fetchBounds hr hw (Nat.lt_of_not_le hp)⟩
    · exact ⟨_, step_waiting hr hw⟩

/-- Settles O36: the two bytes form the fetched word. -/
theorem stepRunsDecodedInstruction : Obligations.StepRunsDecodedInstruction := by
  intro s i hr hw hp hd
  have hexec : s.inputRefresh.setPc (s.pc + 2) = s.inputRefresh.advancePc := rfl
  rw [step_exec hr hw hp (decodeWord_of_decode hd), hexec]
  cases exec i s.inputRefresh.advancePc with
  | next u => simp only [Result.andThen, timerStepIfRunning_eq_ite]
  | fault e => rfl
  | refused e => rfl

/-- Settles O45: a tick of a Faulted machine, with whatever input, is the identity. -/
theorem faultedTickChangesNothing : Obligations.FaultedTickChangesNothing :=
  fun _ _ hr => ⟨step_faulted hr, tickWith_faulted hr⟩

end Sys2Proof.Machine

/-! SUPPORT. What `draw-sprite` answers as one state (`State.draw`), what it does to pixels and to R15, and the
obligations of 41_display.md. -/

namespace Sys2Proof.Machine

open State

/-! ### Encodings, flags and stores -/

/-- A row of the decode table is an encoding: no other row takes its words (R74, R75). -/
theorem encodes_of_row {mask pattern : Word} {build : Word → Instr}
    (hr : (⟨mask, pattern, build⟩ : OpcodeRow) ∈ opcodeTable) : Encodes mask pattern build :=
  fun _ hw => decodeWord_of_row hr hw

theorem flagByte_eq_one_iff (c : Bool) : flagByte c = 1 ↔ c = true := by cases c <;> decide

theorem flagByte_eq_zero_or_one (c : Bool) : flagByte c = 0 ∨ flagByte c = 1 := by cases c <;> decide

theorem storeBytes_onlyMemAndRegsChange (s : State) (a : Nat) (vs : List Byte) :
    OnlyMemAndRegsChange [] s (s.storeBytes a vs) where
  regs _ _ := rfl
  index := rfl
  pc := rfl
  stack := ⟨rfl, rfl⟩
  timers := ⟨rfl, rfl⟩
  status := ⟨rfl, rfl, rfl, rfl, rfl⟩

theorem execClearScreen_eq (s : State) : exec .clearScreen s = .next (s.storeBytes 80 blankFramebuffer) := rfl

/-! ### What `draw-sprite` answers -/

/-- The state after a draw of `n` rows: the rows written, then R15 (R113). -/
def State.draw (s : State) (x y : Reg) (n : Nat) : State :=
  (s.setMem (drawRows s.i.toNat (s.reg x) (s.reg y) n s.mem).1).setFlag
    (flagByte (drawRows s.i.toNat (s.reg x) (s.reg y) n s.mem).2)

@[simp] theorem State.draw_mem (s : State) (x y : Reg) (n : Nat) :
    (s.draw x y n).mem = (drawRows s.i.toNat (s.reg x) (s.reg y) n s.mem).1 := rfl

@[simp] theorem State.draw_i (s : State) (x y : Reg) (n : Nat) : (s.draw x y n).i = s.i := rfl

theorem State.draw_reg_flag (s : State) (x y : Reg) (n : Nat) :
    (s.draw x y n).reg 15 = flagByte (drawRows s.i.toNat (s.reg x) (s.reg y) n s.mem).2 :=
  (reg_setFlag _ _ 15).trans (if_pos rfl)

theorem State.draw_reg_of_ne (s : State) (x y : Reg) (n : Nat) {r : Reg} (hr : r ≠ 15) : (s.draw x y n).reg r = s.reg r :=
  (reg_setFlag _ _ r).trans (if_neg hr)

theorem draw_onlyMemAndRegsChange (s : State) (x y : Reg) (n : Nat) : OnlyMemAndRegsChange [15] s (s.draw x y n) where
  regs _ hr := draw_reg_of_ne s x y n (List.ne_of_not_mem_cons hr)
  index := rfl
  pc := rfl
  stack := ⟨rfl, rfl⟩
  timers := ⟨rfl, rfl⟩
  status := ⟨rfl, rfl, rfl, rfl, rfl⟩

/-- With its data in memory, `draw-sprite` draws. -/
theorem execDrawSprite_in {s : State} {n : Nibble} (h : n.toNat = 0 ∨ s.i.toNat + n.toNat ≤ 4096) (x y : Reg) :
    exec (.drawSprite x y n) s = .next (s.draw x y n.toNat) :=
  congrArg Host.Outcome.next (withIndexSpan_in h (encode (.drawSprite x y n)) _)

/-- With a byte of its data past memory, `draw-sprite` raises BOUNDS (R113, R201). -/
theorem execDrawSprite_out {s : State} {n : Nibble} (h0 : n.toNat ≠ 0) (h : 4096 < s.i.toNat + n.toNat) (x y : Reg) :
    exec (.drawSprite x y n) s =
      .next (s.raise (execRecord (.drawSprite x y n) s .bounds (some (max s.i.toNat 4096)) none)) :=
  congrArg Host.Outcome.next (withIndexSpan_out h0 h (encode (.drawSprite x y n)) _)

/-- A draw collides iff one of its rows does, read when its turn has come (R113, R114). -/
theorem drawRows_collides_iff (base : Nat) (x y : Byte) (n : Nat) (m : Memory) :
    (drawRows base x y n m).2 = true ↔ ∃ k < n,
      (drawRow (drawRows base x y k m).1 (spriteRow y k) (spriteColumn x)
        ((drawRows base x y k m).1.read (base + k))).2 = true := by
  induction n with
  | zero => simp [drawRows]
  | succ n ih => simp only [drawRows, Bool.or_eq_true, ih, Nat.exists_lt_succ_right]

/-! ### Pixels -/

/-- A pixel is a bit of its row's value (R110, R111). -/
theorem pixel_eq_getLsbD_readRow (s : State) {px : Nat} (hx : px < 64) (py : Nat) :
    s.pixel px py = (s.mem.readRow py).getLsbD (63 - px) :=
  (getLsbD_readRow s.mem py hx).symm

/-- Rows with equal pixels are equal. -/
theorem readRow_eq_of_pixel {s t : State} {py : Nat} (h : ∀ px < 64, t.pixel px py = s.pixel px py) :
    t.mem.readRow py = s.mem.readRow py := by
  apply BitVec.eq_of_getLsbD_eq
  intro j hj
  have hbit := h (63 - j) (by omega)
  rwa [pixel_eq_getLsbD_readRow t (by omega), pixel_eq_getLsbD_readRow s (by omega), show 63 - (63 - j) = j by omega]
    at hbit

/-- States with equal pixels, and equal bytes outside the framebuffer, have memories that read alike. -/
theorem memKept_of_pixel {s t : State} (hout : ∀ a, (a < 80 ∨ 336 ≤ a) → t.mem.read a = s.mem.read a)
    (hpix : ∀ px py, px < 64 → py < 32 → t.pixel px py = s.pixel px py) : MemKept s t := by
  intro a
  by_cases ha : a < 80 ∨ 336 ≤ a
  · exact hout a ha
  · have haddr : a = rowAddr ((a - 80) / 8) + (a - 80) % 8 := by simp only [rowAddr, Config.fbBase]; omega
    have hrow := readRow_eq_of_pixel fun px hx => hpix px ((a - 80) / 8) hx (by omega)
    have hk : (a - 80) % 8 < 8 := Nat.mod_lt _ (by decide)
    rw [haddr, ← rowByte_readRow t.mem _ hk, hrow, rowByte_readRow s.mem _ hk]

/-! ### A draw with its data outside the rows drawn -/

section Disjoint

variable {s : State} {y : Reg} {n : Nat}

/-- Such a draw toggles the pixels the sprite lights and no others (R115). -/
theorem pixel_draw (hn : n < 32) (ho : SpriteOutsideRows s y n) (x : Reg) {px py : Nat} (hx : px < 64) (hy : py < 32) :
    (s.draw x y n).pixel px py = true ↔ ¬(s.pixel px py = true ↔ spriteLit s x y n px py) := by
  obtain ⟨-, hrows, -⟩ := drawRows_disjoint hn ho (s.reg x) n le_rfl
  rw [pixel_eq_getLsbD_readRow _ hx, pixel_eq_getLsbD_readRow _ hx, spriteLit_iff s x y hn hx hy, draw_mem, hrows py hy]
  by_cases hdrawn : ∃ k < n, spriteRow (s.reg y) k = py
  · rw [if_pos hdrawn, BitVec.getLsbD_xor, and_iff_right hdrawn, ← Bool.eq_iff_iff]
    exact Bool.xor_iff_ne
  · simp [hdrawn]

/-- Its R15 is 1 iff the sprite lights a lit pixel (R114). -/
theorem draw_flag_iff (hn : n < 32) (ho : SpriteOutsideRows s y n) (x : Reg) :
    (s.draw x y n).reg 15 = 1 ↔
      ∃ px py, px < 64 ∧ py < 32 ∧ s.pixel px py = true ∧ spriteLit s x y n px py := by
  obtain ⟨-, -, hcollides⟩ := drawRows_disjoint hn ho (s.reg x) n le_rfl
  rw [draw_reg_flag, flagByte_eq_one_iff, hcollides]
  constructor
  · rintro ⟨k, hk, hmeet⟩
    obtain ⟨px, hx, hold, hlane⟩ := (and_ne_zero_iff _ _).1 hmeet
    have hy := spriteRow_lt (s.reg y) k
    refine ⟨px, spriteRow (s.reg y) k, hx, hy, (pixel_eq_getLsbD_readRow s hx _).trans hold, ?_⟩
    rw [spriteLit_iff s x y hn hx hy, rowOffset_spriteRow _ (by omega)]
    exact ⟨⟨k, hk, rfl⟩, hlane⟩
  · rintro ⟨px, py, hx, hy, hold, hlit⟩
    obtain ⟨⟨k, hk, rfl⟩, hlane⟩ := (spriteLit_iff s x y hn hx hy).1 hlit
    rw [rowOffset_spriteRow _ (by omega)] at hlane
    exact ⟨k, hk, (and_ne_zero_iff _ _).2 ⟨px, hx, (pixel_eq_getLsbD_readRow s hx _).symm.trans hold, hlane⟩⟩

/-- Its R15 is 1 iff it turns a lit pixel off. -/
theorem draw_flag_iff_turned_off (hn : n < 32) (ho : SpriteOutsideRows s y n) (x : Reg) :
    (s.draw x y n).reg 15 = 1 ↔
      ∃ px py, px < 64 ∧ py < 32 ∧ s.pixel px py = true ∧ (s.draw x y n).pixel px py = false := by
  rw [draw_flag_iff hn ho]
  refine exists₂_congr fun px py => and_congr_right fun hx => and_congr_right fun hy => and_congr_right fun hold => ?_
  rw [← Bool.not_eq_true, pixel_draw hn ho x hx hy, not_not]
  exact ⟨fun hlit => ⟨fun _ => hlit, fun _ => hold⟩, fun h => h.1 hold⟩

/-- It leaves the sprite where it was, so that the next draw lights the same pixels. -/
theorem spriteLit_draw (hn : n < 32) (ho : SpriteOutsideRows s y n) {x : Reg} (hx15 : x ≠ 15) (hy15 : y ≠ 15)
    (px py : Nat) : spriteLit (s.draw x y n) x y n px py ↔ spriteLit s x y n px py := by
  obtain ⟨hdata, -, -⟩ := drawRows_disjoint hn ho (s.reg x) n le_rfl
  simp only [spriteLit, draw_reg_of_ne s x y n hx15, draw_reg_of_ne s x y n hy15, draw_i, draw_mem]
  exact exists_congr fun k => and_congr_right fun hk => by rw [hdata k hk]

theorem spriteOutsideRows_draw (ho : SpriteOutsideRows s y n) (x : Reg) (hy15 : y ≠ 15) :
    SpriteOutsideRows (s.draw x y n) y n := by
  rw [SpriteOutsideRows, draw_reg_of_ne s x y n hy15]
  exact ho

/-- A second draw toggles the pixels back. -/
theorem pixel_draw_draw (hn : n < 32) (ho : SpriteOutsideRows s y n) {x : Reg} (hx15 : x ≠ 15) (hy15 : y ≠ 15)
    {px py : Nat} (hx : px < 64) (hy : py < 32) :
    ((s.draw x y n).draw x y n).pixel px py = s.pixel px py := by
  rw [Bool.eq_iff_iff, pixel_draw hn (spriteOutsideRows_draw ho x hy15) x hx hy, spriteLit_draw hn ho hx15 hy15,
    pixel_draw hn ho x hx hy]
  tauto

end Disjoint

theorem memKept_draw_draw {s : State} {x y : Reg} {n : Nat} (hn : n < 32) (ho : SpriteOutsideRows s y n)
    (hx15 : x ≠ 15) (hy15 : y ≠ 15) : MemKept s ((s.draw x y n).draw x y n) := by
  refine memKept_of_pixel (fun a ha => ?_) fun px py => pixel_draw_draw hn ho hx15 hy15
  rw [draw_mem, read_drawRows_outside _ _ _ _ _ ha, draw_mem, read_drawRows_outside _ _ _ _ _ ha]

/-! ### The obligations -/

/-- Settles O32 by the laws of reading and writing a row. -/
theorem rowValueRoundTrip : Obligations.RowValueRoundTrip := by
  intro m r hr
  refine ⟨fun px hx => getLsbD_readRow m r hx, fun v => ⟨?_, fun k hk => ?_, fun a ha => ?_⟩⟩
  · rw [readRow_writeRow m v hr, if_pos rfl]
  · have hread := read_writeRow m hr v (rowAddr r + k)
    rwa [if_pos (by omega), Nat.add_sub_cancel_left] at hread
  · exact (read_writeRow m hr v a).trans (if_neg (by simp only [rowAddr, Config.fbBase]; omega))

/-- Settles O33: the memories are those of the draws of the first k rows. -/
theorem drawSpriteRowByRow : Obligations.DrawSpriteRowByRow := by
  refine ⟨encodes_of_row (by simp [opcodeTable, rowsTopDigit]), fun x y n s => ⟨fun h0 hout => ?_, fun hin => ?_⟩⟩
  · exact ⟨_, execDrawSprite_out h0 hout x y,
      ⟨rfl, rfl, fun _ _ => rfl, fun _ => rfl, rfl, ⟨rfl, rfl⟩, ⟨rfl, rfl⟩, rfl, rfl, rfl, rfl⟩⟩
  · refine ⟨_, execDrawSprite_in hin x y, fun k => (s.draw x y k).mem, spriteRow (s.reg y),
      fun k => spriteLane ((s.draw x y k).mem.read (s.i.toNat + k)) (spriteColumn (s.reg x)),
      rfl, rfl, fun _ => rfl, fun _ => rfl, fun k _ a => ?_, ?_, ?_, draw_onlyMemAndRegsChange s x y n.toNat⟩
    · exact read_writeRow (s.draw x y k).mem (spriteRow_lt (s.reg y) k) _ a
    · rw [draw_reg_flag]
      exact flagByte_eq_zero_or_one _
    · rw [draw_reg_flag, flagByte_eq_one_iff, drawRows_collides_iff]
      exact exists_congr fun k => and_congr_right fun _ => bne_iff_ne

/-- Settles O34 by the pixels a draw toggles. -/
theorem drawSpriteTogglesPixels : Obligations.DrawSpriteTogglesPixels := by
  intro x y n s hin ho
  have hn : n.toNat < 32 := by omega
  refine ⟨_, execDrawSprite_in (.inr hin) x y, fun px py => pixel_draw hn ho x, draw_flag_iff_turned_off hn ho x, ?_⟩
  rw [draw_reg_flag]
  exact flagByte_eq_zero_or_one _

/-- Settles O35: the second draw toggles the same pixels, and turns off those that the first turned on. -/
theorem drawTwiceRestoresFramebuffer : Obligations.DrawTwiceRestoresFramebuffer := by
  intro x y n s hx15 hy15 hin ho
  have hn : n.toNat < 32 := by omega
  refine ⟨_, _, execDrawSprite_in (.inr hin) x y,
    execDrawSprite_in (s := s.draw x y n.toNat) (.inr hin) x y, memKept_draw_draw hn ho hx15 hy15, ?_⟩
  rw [draw_flag_iff_turned_off hn (spriteOutsideRows_draw ho x hy15) x]
  refine exists₂_congr fun px py => and_congr_right fun hx => and_congr_right fun hy => ?_
  rw [pixel_draw_draw hn ho hx15 hy15 hx hy]
  exact and_comm

/-- Settles O31 by the law of a blank framebuffer. -/
theorem clearScreenZerosFramebuffer : Obligations.ClearScreenZerosFramebuffer := by
  refine ⟨encodes_of_row (by simp [opcodeTable, rowsExactAndByte]), fun s => ⟨_, execClearScreen_eq s,
    fun a hlo hhi => ?_, fun a ha => ?_, storeBytes_onlyMemAndRegsChange s 80 blankFramebuffer⟩⟩
  · rw [storeBytes_mem, read_blank, if_pos ⟨hlo, hhi⟩]
  · rw [storeBytes_mem, read_blank, if_neg (by omega)]

end Sys2Proof.Machine

/-! SUPPORT. What a raised fault, a jump, a skip, a push and a return do to PC, SP and the stack and what they leave
unchanged, and the obligations of 42_control.md. -/

namespace Sys2Proof.Machine

open State

/-! ### Frames -/

/-- The fault of an executing instruction changes RUN and PC as its record says, and nothing else (R204, R205). -/
theorem raiseExec_raised (i : Instr) (s : State) (c : FaultCause) (a : Option Nat) (v : Option Byte) :
    Raised (execRecord i s c a v) s (s.raiseExec (encode i) c a v) where
  run := rfl
  pc := rfl
  regs _ _ := rfl
  mem _ := rfl
  index := rfl
  stack := ⟨rfl, rfl⟩
  timers := ⟨rfl, rfl⟩
  unk := rfl
  host := ⟨rfl, rfl, rfl⟩

theorem setPc_onlyPcChanges (s : State) (v : Word) : OnlyPcChanges s (s.setPc v) where
  regs _ _ := rfl
  mem _ := rfl
  index := rfl
  stack := ⟨rfl, rfl⟩
  timers := ⟨rfl, rfl⟩
  status := ⟨rfl, rfl, rfl, rfl, rfl⟩

theorem skipIf_eq_setPc (s : State) (c : Bool) : s.skipIf c = s.setPc (if c then s.pc + 2 else s.pc) := by
  cases c <;> rfl

theorem skipIf_onlyPcChanges (s : State) (c : Bool) : OnlyPcChanges s (s.skipIf c) := by
  rw [skipIf_eq_setPc]
  exact setPc_onlyPcChanges s _

/-- Whatever PC, SP and stack a state is given, nothing else of it changes. -/
theorem onlyPcAndStackChange_of_set (s : State) (pc : Word) (sp : Byte) (stack : Vector Word 16) :
    OnlyPcAndStackChange s { s with pc := pc, sp := sp, stack := stack } where
  regs _ _ := rfl
  mem _ := rfl
  index := rfl
  timers := ⟨rfl, rfl⟩
  status := ⟨rfl, rfl, rfl, rfl, rfl⟩

/-! ### Jump targets and skips -/

@[simp] theorem extendAddr_toNat (nnn : Addr12) : (extendAddr nnn).toNat = nnn.toNat :=
  BitVec.toNat_setWidth_of_le (by decide)

/-- The target of `jump-offset` is a sum without a wrap (R128). -/
theorem offsetTarget_toNat (r0 : Byte) (nnn : Addr12) : (offsetTarget r0 nnn).toNat = r0.toNat + nnn.toNat := by
  simp only [offsetTarget, extendByte, BitVec.toNat_add, BitVec.toNat_setWidth, extendAddr_toNat]
  omega

/-- PC after the skip of `skip-eq-imm` and `skip-eq-reg` (R124, R126). -/
theorem skipIf_beq_pc_toNat (s : State) (a b : Byte) :
    (s.skipIf (a == b)).pc.toNat = if a.toNat = b.toNat then (s.pc.toNat + 2) % 65536 else s.pc.toNat := by
  by_cases h : a = b
  · simp [h]
  · simp [h, BitVec.toNat_inj]

/-- PC after the skip of `skip-ne-imm` and `skip-ne-reg` (R125, R127). -/
theorem skipIf_bne_pc_toNat (s : State) (a b : Byte) :
    (s.skipIf (a != b)).pc.toNat = if a.toNat = b.toNat then s.pc.toNat else (s.pc.toNat + 2) % 65536 := by
  by_cases h : a = b
  · simp [h]
  · simp [h, BitVec.toNat_inj]

/-! ### The stack -/

theorem push_sp_toNat {s : State} (h : s.sp.toNat < 15) (v : Word) : (s.push v).sp.toNat = s.sp.toNat + 1 := by
  rw [push_sp]
  bv_omega

/-- A push writes the entry at SP + 1 and keeps the others (R122). -/
theorem push_stack_getElem (s : State) (v : Word) (j : Fin 16) :
    (s.push v).stack[j] = if j.val = s.sp.toNat + 1 then v else s.stack[j] := by
  rw [push_stack, Fin.getElem_fin, Vector.getElem_setIfInBounds]
  exact if_congr eq_comm rfl rfl

/-- A return from an occupied entry (R121). -/
theorem execRet_entry {s : State} {j : Fin 16} (hsp : s.sp.toNat = j.val) (h1 : 1 ≤ j.val) :
    exec .ret s = .next { s with pc := s.stack[j], sp := s.sp - 1 } := by
  obtain ⟨n, hn⟩ := j
  obtain rfl : s.sp.toNat = n := hsp
  have h0 : s.sp ≠ 0 := by bv_omega
  exact execRet_pop h0 hn

/-! ### The obligations -/

/-- Settles O17: SP is 0, or names an occupied entry. -/
theorem returnPopsOrUnderflows : Obligations.ReturnPopsOrUnderflows := by
  refine ⟨encodes_of_row (by simp [opcodeTable, rowsExactAndByte]), fun s => ⟨fun h0 => ?_, fun j hsp h1 => ?_⟩⟩
  · exact ⟨_, execRet_underflow h0, raiseExec_raised .ret s _ _ _⟩
  · have hdec : (s.sp - 1).toNat = j.val - 1 := by bv_omega
    exact ⟨_, execRet_entry hsp h1, rfl, hdec, rfl, onlyPcAndStackChange_of_set s _ _ _⟩

/-- Settles O19: the push has room, or the fault is raised. -/
theorem callPushesOrOverflows : Obligations.CallPushesOrOverflows := by
  refine ⟨encodes_of_row (by simp [opcodeTable, rowsTopDigit]), fun nnn s => ⟨fun hfull => ?_, fun hroom => ?_⟩⟩
  · exact ⟨_, execCall_overflow hfull nnn, raiseExec_raised (.call nnn) s _ _ _⟩
  · exact ⟨_, execCall_push hroom nnn, push_sp_toNat hroom s.pc, extendAddr_toNat nnn, push_stack_getElem s s.pc,
      onlyPcAndStackChange_of_set s _ _ _⟩

/-- Settles O23: the return pops the entry that the call pushed. -/
theorem callThenReturnResumesAfterCall : Obligations.CallThenReturnResumesAfterCall := by
  intro nnn s hroom
  refine ⟨_, execCall_push hroom nnn, fun u hsp hstack => ?_⟩
  have husp : u.sp.toNat = s.sp.toNat + 1 := hsp ▸ push_sp_toNat hroom s.pc
  refine ⟨_, execRet_entry (j := ⟨s.sp.toNat + 1, by omega⟩) husp (Nat.le_add_left 1 _), ?_, ?_⟩
  · calc u.stack[s.sp.toNat + 1]
        = (s.push s.pc).stack[s.sp.toNat + 1] := by rw [hstack]; rfl
      _ = s.pc := (push_stack_getElem s s.pc ⟨s.sp.toNat + 1, by omega⟩).trans (if_pos rfl)
  · calc u.sp - 1
        = s.sp + 1 - 1 := congrArg (· - 1) hsp
      _ = s.sp := BitVec.add_sub_cancel _ _

/-- Settles O16: the target is the zero-extended nnn. -/
theorem jumpSetsPc : Obligations.JumpSetsPc :=
  ⟨encodes_of_row (by simp [opcodeTable, rowsTopDigit]),
    fun nnn s => ⟨s.setPc (extendAddr nnn), rfl, extendAddr_toNat nnn, setPc_onlyPcChanges s _⟩⟩

/-- Settles O20 by the PC after each skip. -/
theorem skipOnImmediate : Obligations.SkipOnImmediate :=
  ⟨encodes_of_row (by simp [opcodeTable, rowsTopDigit]), encodes_of_row (by simp [opcodeTable, rowsTopDigit]),
    fun x kk s =>
      ⟨⟨s.skipIf (s.reg x == kk), rfl, skipIf_onlyPcChanges s _, skipIf_beq_pc_toNat s _ _⟩,
        ⟨s.skipIf (s.reg x != kk), rfl, skipIf_onlyPcChanges s _, skipIf_bne_pc_toNat s _ _⟩⟩⟩

/-- Settles O21 by the PC after each skip. -/
theorem skipOnRegisters : Obligations.SkipOnRegisters :=
  ⟨encodes_of_row (by simp [opcodeTable, rowsRegReg]), encodes_of_row (by simp [opcodeTable, rowsRegReg]),
    fun x y s =>
      ⟨⟨s.skipIf (s.reg x == s.reg y), rfl, skipIf_onlyPcChanges s _, skipIf_beq_pc_toNat s _ _⟩,
        ⟨s.skipIf (s.reg x != s.reg y), rfl, skipIf_onlyPcChanges s _, skipIf_bne_pc_toNat s _ _⟩⟩⟩

/-- Settles O22: the sum of a byte and a 12-bit address fits in 16 bits. -/
theorem jumpOffsetAddsR0 : Obligations.JumpOffsetAddsR0 :=
  ⟨encodes_of_row (by simp [opcodeTable, rowsTopDigit]),
    fun nnn s => ⟨s.setPc (offsetTarget (s.reg 0) nnn), rfl, offsetTarget_toNat _ nnn, setPc_onlyPcChanges s _⟩⟩

end Sys2Proof.Machine

/-! SUPPORT. The flags and results of the arithmetic as numbers, what the operations that write R15 leave in the
registers, and the obligations of 43_alu.md. -/

namespace Sys2Proof.Machine

open State

/-! ### Frames -/

/-- A state differs from itself in no register. -/
theorem OnlyRegsChange.refl (regs : List Reg) (s : State) : OnlyRegsChange regs s s where
  regs _ _ := rfl
  mem _ := rfl
  index := rfl
  pc := rfl
  stack := ⟨rfl, rfl⟩
  timers := ⟨rfl, rfl⟩
  status := ⟨rfl, rfl, rfl, rfl, rfl⟩

/-- A write to a listed register keeps a frame. -/
theorem OnlyRegsChange.setReg {regs : List Reg} {s t : State} (h : OnlyRegsChange regs s t) {r : Reg} (hr : r ∈ regs)
    (v : Byte) : OnlyRegsChange regs s (t.setReg r v) where
  regs q hq := by
    have hne : q ≠ r := fun he => hq (he ▸ hr)
    rw [reg_setReg, if_neg hne]
    exact h.regs q hq
  mem := h.mem
  index := h.index
  pc := h.pc
  stack := h.stack
  timers := h.timers
  status := h.status

theorem setReg_onlyRegsChange (s : State) (x : Reg) (v : Byte) : OnlyRegsChange [x] s (s.setReg x v) :=
  (OnlyRegsChange.refl [x] s).setReg (List.mem_singleton_self x) v

/-- The frame of an operation that writes its destination and then R15 (R146). -/
theorem setReg_setFlag_onlyRegsChange (s : State) (d : Reg) (v f : Byte) :
    OnlyRegsChange [d, 15] s ((s.setReg d v).setFlag f) :=
  ((OnlyRegsChange.refl [d, 15] s).setReg (by simp) v).setReg (by simp) f

/-- The frame of an operation that writes R15 and then its destination (R147..R150). -/
theorem setFlag_setReg_onlyRegsChange (s : State) (d : Reg) (f v : Byte) :
    OnlyRegsChange [d, 15] s ((s.setFlag f).setReg d v) :=
  ((OnlyRegsChange.refl [d, 15] s).setReg (by simp) f).setReg (by simp) v

/-! ### Flags and results as numbers -/

theorem flagByte_toNat (p : Prop) [Decidable p] : (flagByte (decide p)).toNat = if p then 1 else 0 := by
  by_cases h : p <;> simp [h, flagByte]

/-- The 16-bit sum of two bytes does not wrap (R146). -/
theorem wideSum_toNat (a b : Byte) : (wideSum a b).toNat = a.toNat + b.toNat := by
  simp only [wideSum, BitVec.toNat_add, BitVec.toNat_setWidth]
  omega

theorem carryFlag_toNat (a b : Byte) : (carryFlag a b).toNat = if a.toNat + b.toNat > 255 then 1 else 0 := by
  rw [carryFlag, flagByte_toNat]
  simp [BitVec.lt_def, wideSum_toNat]

theorem borrowFlag_toNat (a b : Byte) : (borrowFlag a b).toNat = if a.toNat > b.toNat then 1 else 0 :=
  flagByte_toNat _

theorem shiftRightFlag_toNat (v : Byte) : (shiftRightFlag v).toNat = v.toNat % 2 := by
  simp [shiftRightFlag, Nat.and_one_is_mod]

/-- Bit 7 of a byte is set from 128 on. -/
theorem shiftLeftFlag_toNat (v : Byte) : (shiftLeftFlag v).toNat = v.toNat / 128 := by
  have hv : v.toNat < 256 := v.isLt
  have hbit : v.getLsbD 7 = decide (128 ≤ v.toNat) := BitVec.msb_eq_decide v
  rw [shiftLeftFlag, show (0x80 : Byte) = BitVec.twoPow 8 7 from rfl, BitVec.and_twoPow, hbit]
  by_cases h : 128 ≤ v.toNat
  · rw [if_pos (decide_eq_true h)]
    exact (show v.toNat / 128 = 1 by omega).symm
  · rw [if_neg (by simpa using h)]
    exact (Nat.div_eq_of_lt (by omega)).symm

theorem sub_toNat (a b : Byte) : (a - b).toNat = (a.toNat + 256 - b.toNat) % 256 := by
  bv_omega

theorem shiftRight_one_toNat (v : Byte) : (v >>> 1).toNat = v.toNat / 2 := by
  rw [BitVec.toNat_ushiftRight, Nat.shiftRight_eq_div_pow, Nat.pow_one]

theorem shiftLeft_one_toNat (v : Byte) : (v <<< 1).toNat = v.toNat * 2 % 256 := by
  rw [BitVec.toNat_shiftLeft, Nat.shiftLeft_eq, Nat.pow_one]

/-! ### A register after the flag, and after flag and destination -/

/-- What an operand reads as once R15 holds the flag: the flag where the operand is R15 (R11). -/
theorem reg_setFlag_toNat (s : State) (f : Byte) (r : Reg) :
    ((s.setFlag f).reg r).toNat = if r = 15 then f.toNat else (s.reg r).toNat := by
  rw [reg_setFlag, apply_ite BitVec.toNat]

theorem reg_setReg_self (s : State) (r : Reg) (v : Byte) : (s.setReg r v).reg r = v := by
  rw [reg_setReg, if_pos rfl]

/-- A destination that is not R15 keeps the flag that was written before it. -/
theorem reg_flag_setFlag_setReg (s : State) {d : Reg} (hd : d ≠ 15) (f v : Byte) :
    ((s.setFlag f).setReg d v).reg 15 = f := by
  rw [reg_setReg, if_neg hd.symm, reg_setFlag, if_pos rfl]

/-- What both subtractions answer: R15 takes the strict comparison, then `d` the difference `d − e` of the registers as
they then are (R147, R149). -/
def State.subtract (s : State) (d e : Reg) : State :=
  let s1 := s.setFlag (borrowFlag (s.reg d) (s.reg e))
  s1.setReg d (s1.reg d - s1.reg e)

theorem execSubBorrow_eq (x y : Reg) (s : State) : exec (.subBorrow x y) s = .next (s.subtract x y) := rfl

theorem execSubBorrowRev_eq (x y : Reg) (s : State) : exec (.subBorrowRev x y) s = .next (s.subtract y x) := rfl

theorem subtract_onlyRegsChange (s : State) (d e : Reg) : OnlyRegsChange [d, 15] s (s.subtract d e) :=
  setFlag_setReg_onlyRegsChange s d _ _

/-- The destination and R15 after a subtraction, in the corners too where an operand is R15 (R147, R149). -/
theorem subtract_reg_toNat (s : State) (d e : Reg) :
    ∃ f : Nat, f = (if (s.reg d).toNat > (s.reg e).toNat then 1 else 0) ∧
      ((s.subtract d e).reg d).toNat =
        ((if d = 15 then f else (s.reg d).toNat) + 256 - (if e = 15 then f else (s.reg e).toNat)) % 256 ∧
      (d ≠ 15 → ((s.subtract d e).reg 15).toNat = f) := by
  refine ⟨(borrowFlag (s.reg d) (s.reg e)).toNat, borrowFlag_toNat _ _, ?_, fun hd => ?_⟩
  · rw [State.subtract, reg_setReg_self, sub_toNat, reg_setFlag_toNat, reg_setFlag_toNat]
  · rw [State.subtract, reg_flag_setFlag_setReg s hd]

/-- What both shifts answer: R15 takes the bit shifted out of `x`, then `x` the shifted value of what it then holds
(R148, R150). -/
def State.shift (s : State) (x : Reg) (flag shifted : Byte → Byte) : State :=
  let s1 := s.setFlag (flag (s.reg x))
  s1.setReg x (shifted (s1.reg x))

theorem execShiftRight_eq (x y : Reg) (s : State) :
    exec (.shiftRight x y) s = .next (s.shift x shiftRightFlag (· >>> 1)) := rfl

theorem execShiftLeft_eq (x y : Reg) (s : State) :
    exec (.shiftLeft x y) s = .next (s.shift x shiftLeftFlag (· <<< 1)) := rfl

section Shift
variable (s : State) (x : Reg) (flag shifted : Byte → Byte)

theorem shift_onlyRegsChange : OnlyRegsChange [x, 15] s (s.shift x flag shifted) :=
  setFlag_setReg_onlyRegsChange s x _ _

theorem shift_reg_of_ne {x : Reg} (hx : x ≠ 15) : (s.shift x flag shifted).reg x = shifted (s.reg x) := by
  rw [State.shift, reg_setReg_self, reg_setFlag, if_neg hx]

theorem shift_flag_of_ne {x : Reg} (hx : x ≠ 15) : (s.shift x flag shifted).reg 15 = flag (s.reg x) :=
  reg_flag_setFlag_setReg s hx _ _

/-- A shift of R15 shifts the flag bit that was written first (R11). -/
theorem shift_reg_flag : (s.shift 15 flag shifted).reg 15 = shifted (flag (s.reg 15)) := by
  rw [State.shift, reg_setReg_self, reg_setFlag, if_pos rfl]

end Shift

/-! ### The obligations -/

/-- Settles O10: the carry is written last, over the sum where x is 15. -/
theorem addCarryWritesSumThenCarry : Obligations.AddCarryWritesSumThenCarry := by
  refine ⟨encodes_of_row (by simp [opcodeTable, rowsRegReg]), fun x y s =>
    ⟨(s.setReg x ((wideSum (s.reg x) (s.reg y)).setWidth 8)).setFlag (carryFlag (s.reg x) (s.reg y)), rfl, ?_,
      fun hx => ?_, setReg_setFlag_onlyRegsChange s x _ _⟩⟩
  · rw [reg_setFlag, if_pos rfl, carryFlag_toNat]
  · rw [reg_setFlag, if_neg hx, reg_setReg_self, BitVec.toNat_setWidth, wideSum_toNat]

/-- Settles O11: the destination and the minuend are Rx. -/
theorem subBorrowWritesFlagThenDifference : Obligations.SubBorrowWritesFlagThenDifference :=
  ⟨encodes_of_row (by simp [opcodeTable, rowsRegReg]), fun x y s =>
    ⟨s.subtract x y, execSubBorrow_eq x y s, subtract_reg_toNat s x y, subtract_onlyRegsChange s x y⟩⟩

/-- Settles O12: for x = 15 the value shifted is the flag bit, which leaves 0. -/
theorem shiftRightStoresShiftedValue : Obligations.ShiftRightStoresShiftedValue := by
  refine ⟨encodes_of_row (by simp [opcodeTable, rowsRegReg]), fun x y s =>
    ⟨s.shift x shiftRightFlag (· >>> 1), execShiftRight_eq x y s, fun hx => ⟨?_, ?_⟩, ?_, shift_onlyRegsChange s x _ _⟩⟩
  · rw [shift_reg_of_ne s _ _ hx, shiftRight_one_toNat]
  · rw [shift_flag_of_ne s _ _ hx, shiftRightFlag_toNat]
  · rintro rfl
    rw [shift_reg_flag, shiftRight_one_toNat, shiftRightFlag_toNat]
    omega

/-- Settles O13: the destination and the minuend are Ry. -/
theorem subBorrowRevWritesRy : Obligations.SubBorrowRevWritesRy :=
  ⟨encodes_of_row (by simp [opcodeTable, rowsRegReg]), fun x y s =>
    ⟨s.subtract y x, execSubBorrowRev_eq x y s, subtract_reg_toNat s y x, subtract_onlyRegsChange s y x⟩⟩

/-- Settles O14: for x = 15 the value shifted is the flag bit, which leaves 0 or 2. -/
theorem shiftLeftStoresShiftedValue : Obligations.ShiftLeftStoresShiftedValue := by
  refine ⟨encodes_of_row (by simp [opcodeTable, rowsRegReg]), fun x y s =>
    ⟨s.shift x shiftLeftFlag (· <<< 1), execShiftLeft_eq x y s, fun hx => ⟨?_, ?_⟩, ?_, shift_onlyRegsChange s x _ _⟩⟩
  · rw [shift_reg_of_ne s _ _ hx, shiftLeft_one_toNat]
  · rw [shift_flag_of_ne s _ _ hx, shiftLeftFlag_toNat]
  · rintro rfl
    rw [shift_reg_flag, shiftLeft_one_toNat, shiftLeftFlag_toNat]
    omega

/-- Settles O7: one register write. -/
theorem loadImmWritesImmediate : Obligations.LoadImmWritesImmediate :=
  ⟨encodes_of_row (by simp [opcodeTable, rowsTopDigit]), fun x kk s =>
    ⟨s.setReg x kk, rfl, reg_setReg_self s x kk, setReg_onlyRegsChange s x kk⟩⟩

/-- Settles O8: the byte sum wraps, and only Rx is written. -/
theorem addImmWrapsWithoutFlag : Obligations.AddImmWrapsWithoutFlag := by
  refine ⟨encodes_of_row (by simp [opcodeTable, rowsTopDigit]), fun x kk s =>
    ⟨s.setReg x (s.reg x + kk), rfl, ?_, setReg_onlyRegsChange s x _⟩⟩
  rw [reg_setReg_self, BitVec.toNat_add]

/-- Settles O9: each form writes Rx only, and the logic forms act bit by bit. -/
theorem copyAndLogicWriteRx : Obligations.CopyAndLogicWriteRx := by
  refine ⟨encodes_of_row (by simp [opcodeTable, rowsRegReg]), encodes_of_row (by simp [opcodeTable, rowsRegReg]),
    encodes_of_row (by simp [opcodeTable, rowsRegReg]), encodes_of_row (by simp [opcodeTable, rowsRegReg]),
    fun x y s =>
      ⟨⟨s.setReg x (s.reg y), rfl, reg_setReg_self s x _, setReg_onlyRegsChange s x _⟩,
        ⟨s.setReg x (s.reg x ||| s.reg y), rfl, setReg_onlyRegsChange s x _, fun b => ?_⟩,
        ⟨s.setReg x (s.reg x &&& s.reg y), rfl, setReg_onlyRegsChange s x _, fun b => ?_⟩,
        ⟨s.setReg x (s.reg x ^^^ s.reg y), rfl, setReg_onlyRegsChange s x _, fun b => ?_⟩⟩⟩
  · rw [reg_setReg_self, BitVec.getLsbD_or]
  · rw [reg_setReg_self, BitVec.getLsbD_and]
  · rw [reg_setReg_self, BitVec.getLsbD_xor]

/-- Settles O15: a value ANDed with kk and then with its complement is 0, whatever the random byte is. -/
theorem randAndMasksRandomByte : Obligations.RandAndMasksRandomByte := by
  refine ⟨encodes_of_row (by simp [opcodeTable, rowsTopDigit]), fun x kk s =>
    ⟨s.setReg x (s.input.rnd &&& kk), rfl, reg_setReg_self s x _, ?_, setReg_onlyRegsChange s x _⟩⟩
  rw [reg_setReg_self, BitVec.and_assoc, BitVec.and_not_self]
  exact BitVec.and_zero

end Sys2Proof.Machine

/-! SUPPORT. What a checked access at I answers, what a store of bytes and a load of registers leave behind, and the
obligations of 44_index_memory.md. -/

namespace Sys2Proof.Machine

open State

/-! ### Writes of I -/

theorem setI_onlyIndexChanges (s : State) (v : Word) : OnlyIndexChanges s (s.setI v) where
  regs _ _ := rfl
  mem _ := rfl
  pc := rfl
  stack := ⟨rfl, rfl⟩
  timers := ⟨rfl, rfl⟩
  status := ⟨rfl, rfl, rfl, rfl, rfl⟩

@[simp] theorem extendByte_toNat (v : Byte) : (extendByte v).toNat = v.toNat :=
  BitVec.toNat_setWidth_of_le (by decide)

/-- The sum of `add-index` wraps at 16 bits (R161). -/
theorem add_extendByte_toNat (i : Word) (v : Byte) : (i + extendByte v).toNat = (i.toNat + v.toNat) % 65536 := by
  rw [BitVec.toNat_add, extendByte_toNat]

/-- The address of `font-addr` does not wrap, also where the value is no hex digit (R162). -/
theorem glyphAddr_toNat (v : Byte) : (glyphAddr v).toNat = 5 * v.toNat := by
  have hv : v.toNat < 256 := v.isLt
  have hmul : (glyphAddr v).toNat = 5 * v.toNat % 65536 :=
    (BitVec.toNat_mul _ _).trans (congrArg (5 * · % 65536) (extendByte_toNat v))
  rw [hmul, Nat.mod_eq_of_lt (by omega)]

/-! ### Checked accesses at I -/

/-- A checked access that goes past memory changes nothing but RUN and PC (R201, R204). -/
theorem withIndexSpan_raised {s : State} {n : Nat} (h : 4096 ≤ s.i.toNat + n) (i : Instr) (f : Nat → State) :
    Raised (execRecord i s .bounds (some (max s.i.toNat 4096)) none) s (s.withIndexSpan (encode i) (n + 1) f) := by
  rw [withIndexSpan_out (Nat.succ_ne_zero n) (Nat.lt_succ_of_le h)]
  exact raiseExec_raised i s _ _ _

section Access
variable {s : State} (x : Reg)

theorem execBcd_in (h : s.i.toNat + 3 ≤ 4096) :
    exec (.bcd x) s = .next (s.storeBytes s.i.toNat (bcdDigits (s.reg x))) :=
  congrArg Host.Outcome.next (withIndexSpan_in (.inr h) (encode (.bcd x)) _)

theorem execStoreRegs_in (h : s.i.toNat + (x.val + 1) ≤ 4096) :
    exec (.storeRegs x) s = .next (s.storeBytes s.i.toNat (s.regsUpTo x)) :=
  congrArg Host.Outcome.next (withIndexSpan_in (.inr h) (encode (.storeRegs x)) _)

theorem execLoadRegs_in (h : s.i.toNat + (x.val + 1) ≤ 4096) :
    exec (.loadRegs x) s = .next (s.loadRegsFrom s.i.toNat x) :=
  congrArg Host.Outcome.next (withIndexSpan_in (.inr h) (encode (.loadRegs x)) _)

end Access

/-! ### Stores of bytes -/

section Store
variable {a : Nat} {vs : List Byte} (h : a + vs.length ≤ 4096) (s : State)
include h

/-- Each byte stored is read back at its own address. -/
theorem storeBytes_read {k : Nat} (hk : k < vs.length) : (s.storeBytes a vs).mem.read (a + k) = vs[k] := by
  rw [storeBytes_mem, Memory.read_writeBytes vs s.mem a h, if_pos ⟨Nat.le_add_right a k, Nat.add_lt_add_left hk a⟩,
    Nat.add_sub_cancel_left, List.getD_eq_getElem vs 0 hk]

theorem storeBytes_memKeptOutside : MemKeptOutside a vs.length s (s.storeBytes a vs) :=
  fun _ hq => Memory.read_writeBytes_outside vs s.mem a h hq

end Store

/-- The digits of `bcd` as numbers (R163). -/
theorem bcdDigits_toNat (v : Byte) :
    (v / 100).toNat = v.toNat / 100 ∧ (v / 10 % 10).toNat = v.toNat / 10 % 10 ∧ (v % 10).toNat = v.toNat % 10 :=
  ⟨BitVec.toNat_udiv, BitVec.toNat_umod.trans (congrArg (· % 10) BitVec.toNat_udiv), BitVec.toNat_umod⟩

theorem regsUpTo_getElem (s : State) {x j : Reg} (hj : j.val < (s.regsUpTo x).length) :
    (s.regsUpTo x)[j.val] = s.reg j :=
  List.getElem_take.trans (Vector.getElem_toList _)

/-! ### Loads of registers -/

theorem loadRegsFrom_memKept (s : State) (base : Nat) (x : Reg) : MemKept s (s.loadRegsFrom base x) :=
  fun a => by rw [loadRegsFrom_mem]

/-- `load-regs` writes R0..Rx only (R165). -/
theorem loadRegsFrom_onlyMemAndRegsChange (s : State) (base : Nat) (x : Reg) :
    OnlyMemAndRegsChange ((List.finRange 16).filter (· ≤ x)) s (s.loadRegsFrom base x) where
  regs r hr := by
    have habove : ¬ r ≤ x := by simpa using hr
    rw [reg_loadRegsFrom, if_neg habove]
  index := loadRegsFrom_i s base x
  pc := loadRegsFrom_pc s base x
  stack := ⟨loadRegsFrom_sp s base x, loadRegsFrom_stack s base x⟩
  timers := ⟨loadRegsFrom_dt s base x, loadRegsFrom_st s base x⟩
  status := ⟨loadRegsFrom_run s base x, loadRegsFrom_unk s base x, loadRegsFrom_policy s base x,
    loadRegsFrom_inputs s base x, loadRegsFrom_freeCount s base x⟩

/-! ### The obligations -/

/-- Settles O25: the span of three bytes leaves memory, or the digits are stored. -/
theorem bcdStoresDigitsOrFaults : Obligations.BcdStoresDigitsOrFaults := by
  refine ⟨encodes_of_row (by simp [opcodeTable, rowsExactAndByte]), fun x s => ⟨fun hout => ?_, fun hin => ?_⟩⟩
  · exact ⟨_, rfl, withIndexSpan_raised hout (.bcd x) _⟩
  · have hlen : (bcdDigits (s.reg x)).length = 3 := rfl
    have hspan : s.i.toNat + (bcdDigits (s.reg x)).length ≤ 4096 := hin
    obtain ⟨hundreds, tens, ones⟩ := bcdDigits_toNat (s.reg x)
    refine ⟨_, execBcd_in x hin, ?_, ?_, ?_, storeBytes_memKeptOutside hspan s, storeBytes_onlyMemAndRegsChange s _ _⟩
    · exact (congrArg BitVec.toNat (storeBytes_read hspan s (k := 0) (by omega))).trans hundreds
    · exact (congrArg BitVec.toNat (storeBytes_read hspan s (k := 1) (by omega))).trans tens
    · exact (congrArg BitVec.toNat (storeBytes_read hspan s (k := 2) (by omega))).trans ones

/-- Settles O26: the span of x + 1 bytes leaves memory, or the registers are stored. -/
theorem storeRegsStoresOrFaults : Obligations.StoreRegsStoresOrFaults := by
  refine ⟨encodes_of_row (by simp [opcodeTable, rowsExactAndByte]), fun x s => ⟨fun hout => ?_, fun hin => ?_⟩⟩
  · exact ⟨_, rfl, withIndexSpan_raised hout (.storeRegs x) _⟩
  · have hlen := regsUpTo_length s x
    have hspan : s.i.toNat + (s.regsUpTo x).length ≤ 4096 := hlen ▸ hin
    refine ⟨_, execStoreRegs_in x hin, fun j hj => ?_, hlen ▸ storeBytes_memKeptOutside hspan s,
      storeBytes_onlyMemAndRegsChange s _ _⟩
    have hjlen : j.val < (s.regsUpTo x).length := hlen ▸ Nat.lt_succ_of_le hj
    rw [storeBytes_read hspan s hjlen, regsUpTo_getElem]

/-- Settles O27: the span of x + 1 bytes leaves memory, or the registers are loaded. -/
theorem loadRegsLoadsOrFaults : Obligations.LoadRegsLoadsOrFaults := by
  refine ⟨encodes_of_row (by simp [opcodeTable, rowsExactAndByte]), fun x s => ⟨fun hout => ?_, fun hin => ?_⟩⟩
  · exact ⟨_, rfl, withIndexSpan_raised hout (.loadRegs x) _⟩
  · exact ⟨_, execLoadRegs_in x hin, fun j => reg_loadRegsFrom s s.i.toNat x j, loadRegsFrom_memKept s s.i.toNat x,
      loadRegsFrom_onlyMemAndRegsChange s s.i.toNat x⟩

/-- Settles O24: each of the three is one write of I. -/
theorem indexWrites : Obligations.IndexWrites :=
  ⟨encodes_of_row (by simp [opcodeTable, rowsTopDigit]), encodes_of_row (by simp [opcodeTable, rowsExactAndByte]),
    encodes_of_row (by simp [opcodeTable, rowsExactAndByte]), fun s =>
      ⟨fun nnn => ⟨s.setI (extendAddr nnn), rfl, extendAddr_toNat nnn, setI_onlyIndexChanges s _⟩,
        fun x => ⟨s.setI (s.i + extendByte (s.reg x)), rfl, add_extendByte_toNat s.i _, setI_onlyIndexChanges s _⟩,
        fun x => ⟨s.setI (glyphAddr (s.reg x)), rfl, glyphAddr_toNat _, setI_onlyIndexChanges s _⟩⟩⟩

end Sys2Proof.Machine

/-! SUPPORT. What a key test, a write of a timer and `await-key` do and leave unchanged, the ticks that begin and end a
wait as one equation each, and the obligations of 45_keys_timers.md. -/

namespace Sys2Proof.Machine

open State

/-! ### Key tests (R180, R181) -/

/-- A key test on a register that names no key changes nothing but RUN and PC (R204, R206). -/
theorem withKey_raised {s : State} {v : Byte} (h : 16 ≤ v.toNat) (i : Instr) (f : Nat → State) :
    Raised (execRecord i s .keyIndex none (some v)) s (s.withKey (encode i) v f) := by
  rw [withKey_ge h]
  exact raiseExec_raised i s _ _ _

section KeyTest
variable {s : State} {x : Reg} (h : (s.reg x).toNat < 16)
include h

theorem execSkipKeyDown_lt :
    exec (.skipKeyDown x) s = .next (s.skipIf (s.mem.read (337 + (s.reg x).toNat) != 0)) :=
  congrArg Host.Outcome.next (withKey_lt h (encode (.skipKeyDown x)) _)

theorem execSkipKeyUp_lt :
    exec (.skipKeyUp x) s = .next (s.skipIf (s.mem.read (337 + (s.reg x).toNat) == 0)) := by
  rw [← Bool.not_not (s.mem.read _ == 0)]
  exact congrArg Host.Outcome.next (withKey_lt h (encode (.skipKeyUp x)) _)

end KeyTest

/-! ### Writes of the timers and of memory -/

/-- Whatever timers a state is given, nothing else of it changes. -/
theorem onlyTimersChange_of_set (s : State) (dt st : Byte) : OnlyTimersChange s { s with dt := dt, st := st } where
  regs _ _ := rfl
  mem _ := rfl
  index := rfl
  pc := rfl
  stack := ⟨rfl, rfl⟩
  status := ⟨rfl, rfl, rfl, rfl, rfl⟩

theorem setMem_onlyMemAndRegsChange (s : State) (m : Memory) : OnlyMemAndRegsChange [] s (s.setMem m) where
  regs _ _ := rfl
  index := rfl
  pc := rfl
  stack := ⟨rfl, rfl⟩
  timers := ⟨rfl, rfl⟩
  status := ⟨rfl, rfl, rfl, rfl, rfl⟩

/-! ### Waiting for a key (R31, R100, R183) -/

/-- The state `await-key Rx` answers. -/
def State.awaitKey (s : State) (x : Reg) : State := s.setMem ((s.mem.write 361 (regIndexByte x)).write 360 1)

theorem execAwaitKey_eq (x : Reg) (s : State) : exec (.awaitKey x) s = .next (s.awaitKey x) := rfl

theorem read_awaitKey (s : State) (x : Reg) (a : Nat) :
    (s.awaitKey x).mem.read a = if a = 360 then 1 else if a = 361 then regIndexByte x else s.mem.read a := by
  rw [State.awaitKey, setMem_mem, Memory.read_write _ (by decide), Memory.read_write _ (by decide)]

@[simp] theorem awaitKey_run (s : State) (x : Reg) : (s.awaitKey x).run = s.run := rfl
@[simp] theorem awaitKey_pc (s : State) (x : Reg) : (s.awaitKey x).pc = s.pc := rfl
@[simp] theorem awaitKey_dt (s : State) (x : Reg) : (s.awaitKey x).dt = s.dt := rfl
@[simp] theorem awaitKey_inputs (s : State) (x : Reg) : (s.awaitKey x).inputs = s.inputs := rfl
@[simp] theorem awaitKey_reg (s : State) (x q : Reg) : (s.awaitKey x).reg q = s.reg q := rfl

theorem waitFsm_awaitKey (s : State) (x : Reg) : (s.awaitKey x).waitFsm = .waitingForKey (regIndexByte x) := by
  simp [State.waitFsm, read_awaitKey]

/-- The first input that the host has supplied is the one of the coming tick (R90). -/
theorem input_of_inputs_cons {s : State} {input : TickInput} {l : List TickInput} (h : s.inputs = input :: l) :
    s.input = input := by
  simp only [State.input, h]

/-- The tick that executes `await-key` (R93, R98, R183). -/
theorem step_awaitKey {s : State} {x : Reg} (hr : s.run = .running) (hw : s.mem.read 360 = 0)
    (hp : s.pc.toNat + 2 ≤ 4096) (hd : decodeWord (fetched s) = some (.awaitKey x)) :
    step s = .next (s.inputRefresh.advancePc.awaitKey x).timerStep.consumeInput := by
  rw [← timerStepIfRunning_of_running (s := s.inputRefresh.advancePc.awaitKey x) hr]
  exact step_exec_next hr hw hp hd (execAwaitKey_eq x _)

/-- A waiting tick with a key pressed and a legal target (R100). -/
theorem step_waiting_resolved {s : State} {k : Fin 16} {r : Reg} (hr : s.run = .running) (hw : s.mem.read 360 ≠ 0)
    (htarget : s.mem.read 361 = regIndexByte r) (hk : LowestPressed s k) :
    step s = .next
      ((s.inputRefresh.setReg r (regIndexByte k)).setMem (s.inputRefresh.mem.write 360 0)).consumeInput := by
  have hlt : (regIndexByte r).toNat < 16 := regIndexByte_toNat r ▸ r.isLt
  have hreg : (⟨(regIndexByte r).toNat, hlt⟩ : Reg) = r := Fin.ext (regIndexByte_toNat r)
  rw [step_waiting hr hw, htarget, State.waitStep, firstPressed_inputRefresh hk]
  simp only [dif_pos hlt, hreg]

/-! ### The obligations -/

/-- Settles O44: the first tick leaves the wait cells as `await-key` wrote them, so the second is a resolved wait. -/
theorem awaitKeyResolvesOnNextTick : Obligations.AwaitKeyResolvesOnNextTick := by
  intro s x k now later rest hr hw hp hin hd hk hlow
  have hstep := step_awaitKey hr hw hp hd
  generalize ht : (s.inputRefresh.advancePc.awaitKey x).timerStep.consumeInput = t at hstep
  have hrun : t.run = .running := by simp [← ht, hr]
  have hwait : t.mem.read 360 ≠ 0 := by simp [← ht, read_awaitKey]
  have htarget : t.mem.read 361 = regIndexByte x := by simp [← ht, read_awaitKey]
  have hreg (q : Reg) : t.reg q = s.reg q := by simp [← ht]
  have hinputs : t.inputs = later :: rest := by simp [← ht, hin]
  have hnowrap : s.pc.toNat + 2 < 65536 := by omega
  have hpc : t.pc.toNat = s.pc.toNat + 2 := by simp [← ht, hnowrap]
  have hdt : t.dt.toNat = s.dt.toNat - 1 := by simp [← ht, countDown_toNat]
  have hlowest : LowestPressed t k := by
    rw [LowestPressed, input_of_inputs_cons hinputs]
    exact ⟨hk, hlow⟩
  refine ⟨t, _, hstep, step_waiting_resolved hrun hwait htarget hlowest, hpc, hdt, fun q _ => hreg q, hwait,
    by simpa using hrun, by simp [regIndexByte_toNat], fun q hq => ?_, by simp, by simp [TimersKept],
    by simp [Memory.read_write], by simp [hinputs]⟩
  have hne : q ≠ x := by simpa using hq
  simp [hne, hreg]

/-- Settles O28: the register names no key, or its cell decides the skip. -/
theorem skipOnKeyOrFaults : Obligations.SkipOnKeyOrFaults := by
  refine ⟨encodes_of_row (by simp [opcodeTable, rowsExactAndByte]),
    encodes_of_row (by simp [opcodeTable, rowsExactAndByte]), fun x s => ⟨fun hge => ?_, fun hlt => ?_⟩⟩
  · exact ⟨⟨_, rfl, withKey_raised hge (.skipKeyDown x) _⟩, ⟨_, rfl, withKey_raised hge (.skipKeyUp x) _⟩⟩
  · simp only [← BitVec.toNat_inj (y := (0 : Byte))]
    exact ⟨⟨_, execSkipKeyDown_lt hlt, skipIf_onlyPcChanges s _, skipIf_bne_pc_toNat s _ 0⟩,
      ⟨_, execSkipKeyUp_lt hlt, skipIf_onlyPcChanges s _, skipIf_beq_pc_toNat s _ 0⟩⟩

/-- Settles O30: the two stores are to two addresses, and neither is to a register. -/
theorem awaitKeyEntersWait : Obligations.AwaitKeyEntersWait := by
  refine ⟨encodes_of_row (by simp [opcodeTable, rowsExactAndByte]), fun x s =>
    ⟨s.awaitKey x, execAwaitKey_eq x s, read_awaitKey s x 360, ?_, waitFsm_awaitKey s x, fun a ha => ?_,
      setMem_onlyMemAndRegsChange s _⟩⟩
  · rw [read_awaitKey]
    exact regIndexByte_toNat x
  · rw [read_awaitKey, if_neg (by omega), if_neg (by omega)]

/-- Settles O29: each transfer is one write. -/
theorem timerTransfers : Obligations.TimerTransfers :=
  ⟨encodes_of_row (by simp [opcodeTable, rowsExactAndByte]), encodes_of_row (by simp [opcodeTable, rowsExactAndByte]),
    encodes_of_row (by simp [opcodeTable, rowsExactAndByte]), fun x s =>
      ⟨⟨s.setReg x s.dt, rfl, reg_setReg_self s x s.dt, setReg_onlyRegsChange s x s.dt⟩,
        ⟨s.setDt (s.reg x), rfl, rfl, rfl, onlyTimersChange_of_set s (s.reg x) s.st⟩,
        ⟨s.setSt (s.reg x), rfl, rfl, rfl, onlyTimersChange_of_set s s.dt (s.reg x)⟩⟩⟩

end Sys2Proof.Machine

/-! SUPPORT. Which record a step that faults can leave and what state it answers, said once (`StepCase.faulted`), and
the obligations of 60_exceptions.md. -/

namespace Sys2Proof.Machine

open State

/-- Every way a tick raises a fault, with its condition and its record (R200, R205, R209). -/
inductive StepFault (s : State) : FaultRecord → Prop where
  /-- waiting, a key pressed, no such register (R207) -/
  | badTarget (k : Fin 16) (hw : s.mem.read 360 ≠ 0) (hk : LowestPressed s k) (ht : 16 ≤ (s.mem.read 361).toNat) :
      StepFault s ⟨.waitTarget, s.pc, none, none, some (s.mem.read 361)⟩
  /-- the fetch is past memory (R94, R201) -/
  | fetchBounds (hw : s.mem.read 360 = 0) (h : 4096 < s.pc.toNat + 2) :
      StepFault s ⟨.bounds, s.pc, none, some (max s.pc.toNat 4096), none⟩
  /-- the fetched instruction fails its own check -/
  | instr (i : Instr) {c : FaultCause} {a : Option Nat} {v : Option Byte} (hw : s.mem.read 360 = 0)
      (h : s.pc.toNat + 2 ≤ 4096) (hd : decodeWord (fetched s) = some i) (hf : ExecFault i s c a v) :
      StepFault s ⟨c, s.pc, some (fetched s), a, v⟩
  /-- an unknown opcode under FAULT (R208) -/
  | unknown (hw : s.mem.read 360 = 0) (h : s.pc.toNat + 2 ≤ 4096) (hd : decodeWord (fetched s) = none)
      (hp : s.policy = .fault) : StepFault s ⟨.unknownOpcode, s.pc, some (fetched s), none, none⟩

section Step

variable {s t : State} {r : FaultRecord}

/-- Every fault records the address of the faulting instruction (R204). -/
theorem StepFault.record_pc (h : StepFault s r) : r.pc = s.pc := by cases h <;> rfl

@[simp] theorem timerStepIfRunning_run (s : State) : s.timerStepIfRunning.run = s.run := by
  unfold State.timerStepIfRunning; split <;> rfl

/-- The checks of an instruction read nothing that the refresh and the PC advance write. -/
theorem ExecFault.of_inputRefresh_advancePc {i : Instr} {c : FaultCause} {a : Option Nat} {v : Option Byte}
    (h : ExecFault i s.inputRefresh.advancePc c a v) : ExecFault i s c a v := by
  cases h with
  | bounds n hn h0 h => exact .bounds n hn h0 h
  | overflow nnn hi h => exact .overflow nnn hi h
  | underflow hi h => exact .underflow hi h
  | key x hi h => exact .key x hi h

/-- An instruction that faults records the fetched word, and the PC advance before it is undone. -/
theorem raiseExec_encode_fetched {i : Instr} (hd : decodeWord (fetched s) = some i) (c : FaultCause)
    (a : Option Nat) (v : Option Byte) :
    s.inputRefresh.advancePc.raiseExec (encode i) c a v =
      s.inputRefresh.raise ⟨c, s.pc, some (fetched s), a, v⟩ := by
  rw [raiseExec_advancePc, encodeOfDecodeIsWord _ _ hd, inputRefresh_pc]

/-- A step that faults raises one of the faults listed in the refreshed state, and does nothing else but use up the
host input: no timer step, no PC advance (R204). -/
theorem StepCase.faulted (hr : s.run = .running) (hc : StepCase s t) (ht : t.run = .faulted r) :
    StepFault s r ∧ t = (s.inputRefresh.raise r).consumeInput := by
  cases hc with
  | idle | resolved => simp [hr] at ht
  | badTarget k hw hk h16 =>
    obtain rfl : _ = r := by simpa using ht
    exact ⟨.badTarget k hw hk h16, rfl⟩
  | fetchBounds hw hp =>
    obtain rfl : _ = r := by simpa using ht
    exact ⟨.fetchBounds hw hp, rfl⟩
  | instr i u hw hp hd he =>
    rcases exec_run he with hu | ⟨c, a, v, hf, rfl⟩
    · simp [hu, hr] at ht
    · rw [raiseExec_encode_fetched hd] at ht ⊢
      obtain rfl : _ = r := by simpa using ht
      exact ⟨.instr i hw hp hd hf.of_inputRefresh_advancePc, rfl⟩
  | unknown hw hp hd =>
    cases hpol : s.policy with
    | nop => rw [unknownOpcode_nop (s := s.inputRefresh.advancePc) hpol] at ht; simp [hr] at ht
    | fault =>
      rw [unknownOpcode_fault (s := s.inputRefresh.advancePc) hpol, raiseExec_advancePc] at ht ⊢
      obtain rfl : _ = r := by simpa using ht
      exact ⟨.unknown hw hp hd hpol, rfl⟩

end Step

/-! ### The obligations -/

/-- Settles O47: the raise changes RUN and PC only, and the PC it sets is the one that was there. -/
theorem faultsArePrecise : Obligations.FaultsArePrecise := by
  intro s t r hr h ht
  obtain ⟨hf, rfl⟩ := (step_cases hr h).faulted hr ht
  have hpc : r.pc = s.pc := hf.record_pc
  simp [hpc, RegsKept, StackKept, TimersKept, ← read_inputRefresh]

/-- Settles O48: each way to fault has the one cause, and carries the condition of that cause. -/
theorem everyFaultHasItsCause : Obligations.EveryFaultHasItsCause := by
  intro s t r hr h ht
  obtain ⟨hf, -⟩ := (step_cases hr h).faulted hr ht
  cases hf with
  | badTarget k hw hk h16 => exact ⟨hw, rfl, rfl, rfl, h16, k, hk.1⟩
  | fetchBounds hw hp => exact ⟨hw, rfl, .inl ⟨hp, rfl, rfl⟩⟩
  | unknown hw _ hd hpol => exact ⟨hw, rfl, rfl, rfl, hd, hpol⟩
  | instr i hw hp hd hf =>
    cases hf with
    | bounds n hn h0 hout => exact ⟨hw, rfl, .inr ⟨hp, rfl, rfl, i, n, hd, hn, h0, hout⟩⟩
    | overflow nnn hi hfull => exact ⟨hw, rfl, rfl, rfl, ⟨nnn, hi ▸ hd⟩, hfull⟩
    | underflow hi h0 => exact ⟨hw, rfl, rfl, rfl, hi ▸ hd, h0⟩
    | key x hi h16 =>
      refine ⟨hw, rfl, rfl, x, ?_, rfl, h16⟩
      rcases hi with rfl | rfl
      · exact .inl hd
      · exact .inr hd

end Sys2Proof.Machine

/-! SUPPORT. What the memory of a constructed machine reads in each of its regions, said once per region, the one state
that construction answers, and the obligations about construction of 70_reset_and_hazards.md. -/

namespace Sys2Proof.Machine

/-! ### The memory of a constructed machine -/

/-- An address past the font reads as 0 while it is not listed. -/
theorem Memory.unlisted_past_font {a : Nat} (ha : 80 ≤ a) : Memory.unlisted a = 0 := by
  have hlen : referenceFont.length = 80 := by decide
  exact List.getD_eq_default referenceFont 0 (hlen ▸ ha)

theorem constructMemory_wf (font : Vector Byte 80) (rom : List Byte) : (constructMemory font rom).wf :=
  Memory.wf_writeBytes (Memory.wf_writeBytes Memory.wf_nil font.toList 0) rom 512

section ConstructMemory
variable (font : Vector Byte 80)

/-- What the font's store leaves, before the ROM's. -/
theorem read_writeBytes_font (a : Nat) :
    (Memory.writeBytes [] 0 font.toList).read a = if h : a < 80 then font[a] else 0 := by
  have hlen : font.toList.length = 80 := Vector.length_toList
  rw [Memory.read_writeBytes font.toList [] 0 (by omega)]
  by_cases ha : a < 80
  · rw [if_pos (by omega), dif_pos ha, Nat.sub_zero, List.getD_eq_getElem _ 0 (by omega), Vector.getElem_toList]
  · rw [if_neg (by omega), dif_neg ha]
    exact Memory.unlisted_past_font (Nat.le_of_not_lt ha)

variable {rom : List Byte} (hrom : rom.length ≤ 3584)
include hrom

/-- The ROM fits between its first address and the end of memory. -/
theorem read_constructMemory_rom {j : Nat} (hj : j < rom.length) :
    (constructMemory font rom).read (512 + j) = rom[j] := by
  rw [constructMemory, Config.progStart, Memory.read_writeBytes rom _ 512 (by omega), if_pos (by omega),
    Nat.add_sub_cancel_left, List.getD_eq_getElem rom 0 hj]

/-- Outside the ROM stands what the font's store left. -/
theorem read_constructMemory_outside {a : Nat} (ha : a < 512 ∨ 512 + rom.length ≤ a) :
    (constructMemory font rom).read a = if h : a < 80 then font[a] else 0 := by
  rw [constructMemory, Config.progStart, Memory.read_writeBytes_outside rom _ 512 (by omega) ha,
    read_writeBytes_font]

theorem read_constructMemory_font {a : Nat} (ha : a < 80) : (constructMemory font rom).read a = font[a] := by
  rw [read_constructMemory_outside font hrom (by omega), dif_pos ha]

theorem read_constructMemory_zero {a : Nat} (h80 : 80 ≤ a) (ha : a < 512 ∨ 512 + rom.length ≤ a) :
    (constructMemory font rom).read a = 0 := by
  rw [read_constructMemory_outside font hrom ha, dif_neg (by omega)]

end ConstructMemory

/-! ### What construction answers -/

/-- The machine that construction answers for a ROM that fits (R230). -/
def State.constructed (p : Config.Params) (rom : List Byte) (inputs : List TickInput) : State where
  mem := constructMemory p.font rom
  regs := p.initR
  i := p.initI
  pc := 512
  sp := 0
  stack := Vector.replicate 16 0
  dt := 0
  st := 0
  run := .running
  unk := false
  policy := p.policy
  inputs := inputs
  freeCount := 0

section Construct
variable (p : Config.Params) {rom : List Byte} (inputs : List TickInput)

theorem construct_fitting (h : rom.length ≤ 3584) :
    construct p rom inputs = .next (State.constructed p rom inputs) :=
  if_pos (decide_eq_true h)

theorem construct_tooLong (h : 3584 < rom.length) : construct p rom inputs = .refused .loadError :=
  if_neg fun hwf => Nat.not_le.2 h (of_decide_eq_true hwf)

/-- The wait flag's byte lies past the font and below the ROM, so no wait stands. -/
theorem constructed_waitFsm (h : rom.length ≤ 3584) : (State.constructed p rom inputs).waitFsm = .running :=
  if_pos (read_constructMemory_zero p.font h (by decide) (.inl (by decide)))

/-- No stack entry is occupied and RUN is Running, so memory is all there is to check. -/
theorem constructed_inv (rom : List Byte) : (State.constructed p rom inputs).Inv where
  memWf := constructMemory_wf p.font rom
  spLegal := Nat.zero_le 15
  pcBound := (by decide : (512 : Word).toNat ≤ 4350)
  stackBound _ h1 hj := absurd hj (Nat.not_le.2 h1)
  recordLegal _ hr := RunState.noConfusion hr

end Construct

/-! ### The obligations -/

/-- Settles O55: the ROM is refused or fits, and memory reads as its regions say. -/
theorem constructionResult : Obligations.ConstructionResult := fun p _ inputs =>
  ⟨construct_tooLong p inputs, fun hrom => ⟨_, construct_fitting p inputs hrom,
    fun _ => read_constructMemory_font p.font hrom, fun _ => read_constructMemory_rom p.font hrom,
    fun _ => read_constructMemory_zero p.font hrom,
    rfl, rfl, rfl, rfl, rfl, rfl, rfl, rfl, constructed_waitFsm p inputs hrom, rfl⟩⟩

/-- Settles O57: the one machine that construction answers meets the invariant. -/
theorem constructedMachineMeetsInvariant : Obligations.ConstructedMachineMeetsInvariant := by
  intro p rom inputs t h
  rcases Nat.lt_or_ge 3584 rom.length with hlong | hrom
  · rw [construct_tooLong p inputs hlong] at h
    cases h
  · rw [construct_fitting p inputs hrom] at h
    cases h
    exact constructed_inv p inputs rom

end Sys2Proof.Machine
